-- ==== Sys2Proof/Word.lean ====
section
/-!
DEFINITION. The plainest names for the numbers of the machine. The widths `N` and `W` are fields of the Architecture
Descriptor (00_scope.md R7, R8), so a word and a cell value are natural numbers, as the spec itself has them
(R12, R13: "all arithmetic in pseudocode is on mathematical integers; a result is narrowed only where a rule says so").
-/

namespace Sys2Proof

/-- One raw instruction word, a natural number below `2^N` (R12). -/
abbrev Word := Nat

/-- One cell of the data memory that is not 0: its address and its `W`-bit value (20_memory.md R61). -/
abbrev Cell := Nat × Nat

end Sys2Proof
end

