-- ==== Sys2Proof/Config.lean ====
section
/-!
DEFINITION. What an implementation fixes: the Architecture Descriptor of 00_scope.md R7 and R8, and the one free value of
the model, the outcome of a random draw (R16, 40_arithmetic.md R145).
-/

namespace Sys2Proof

/-- A bit field `(lo, w)` of an instruction word: `w` bits from bit `lo` up (R12). -/
structure Field where
  lo : Nat
  w : Nat
  deriving DecidableEq, Repr

/-- The fourteen operations of R11. -/
inductive Operation where
  | add | sub | li | mov | rand | lw | sw | cmp | beq | bne | bgt | j | jal | jr
  deriving DecidableEq, Repr

/-- The formats of 30_encoding.md R93; `U` is the decoder's fourth outcome, "unclassified". -/
inductive Format where
  | R | I | J | U
  deriving DecidableEq, Repr

/-- The decode format R11 gives each operation. -/
def Operation.format : Operation → Format
  | .add | .sub | .mov | .lw | .sw | .cmp | .jr => .R
  | .li | .rand | .beq | .bne | .bgt => .I
  | .j | .jal => .J

/-- How rand uses its immediate, the field `RAND_MODE` (R8, 40_arithmetic.md R145). -/
inductive RandMode where
  | none | mask | bound
  deriving DecidableEq, Repr

/-- The relation cmp tests, the field `CMP_REL` (R8, 42_compare_branch.md R170). -/
inductive CmpRel where
  | eq | ne | gt
  deriving DecidableEq, Repr

/-- Whether an instruction other than cmp that names register `C` as its destination writes it, the field
`C_EXPLICIT_WRITE` (R8, 10_state.md R33). -/
inductive ExplicitWrite where
  | write | drop
  deriving DecidableEq, Repr

/-- What a word with no operation does, the field `UNRECOGNIZED` (R8, 30_encoding.md R103). -/
inductive Unrecognized where
  | fault | nop
  deriving DecidableEq, Repr

/-- The second dispatch level of a descriptor with `HAS_FUNCT`: the shared opcode `R_OPCODE`, the field `FUNCT`, and
the part of `OPMAP` under it, from function codes to operations (R8, 30_encoding.md R102). -/
structure FunctCodes where
  rOpcode : Nat
  field : Field
  ops : List (Nat × Operation)
  deriving DecidableEq, Repr

/-- The Architecture Descriptor `D` of R8, field for field. `HAS_FUNCT`, `R_OPCODE` and `FUNCT` are the one field
`funct`, which is `some` exactly when `HAS_FUNCT` is true. `opmap` is the part of `OPMAP` keyed by the opcode. -/
structure Descriptor where
  /-- instruction word width -/
  N : Nat
  /-- register width, and data-address width -/
  W : Nat
  /-- number of general registers -/
  R : Nat
  /-- number of button latches -/
  B : Nat
  /-- side of the display grid -/
  M : Nat
  /-- the I/O threshold -/
  T : Nat
  /-- the opcode field `OP` -/
  op : Field
  /-- the register-register opcode and its function codes -/
  funct : Option FunctCodes
  /-- R-format register fields -/
  rRa : Field
  rRb : Field
  /-- I-format register and immediate fields -/
  iRa : Field
  iImm : Field
  /-- J-format target field -/
  jTgt : Option Field
  /-- `OPMAP`, from opcode values to operations -/
  opmap : List (Nat × Operation)
  /-- the implicit comparison register -/
  C : Nat
  /-- the link register `LINK` -/
  link : Option Nat
  /-- `RESERVED`, from read-only register indices to their constants -/
  reserved : List (Nat × Nat)
  randMode : RandMode
  cmpRel : Option CmpRel
  cExplicitWrite : ExplicitWrite
  unrecognized : Unrecognized
  deriving DecidableEq, Repr

/-- The operations `OPMAP` names, under function codes and under opcodes. -/
def Descriptor.operations (D : Descriptor) : List Operation :=
  ((D.funct.map (·.ops)).getD [] ++ D.opmap).map (·.2)

/-- FREE VALUE (log 5). The raw outcome of the `n`-th random draw. It has no body: R16 says a draw is a value "that the
model does not choose", and nothing here constrains it. The machine narrows it into the set R145 draws from. -/
opaque Config.freeDraw : Nat → Nat

end Sys2Proof
end

