-- ==== Sys2Proof/Syntax.lean ====
section
/-!
DEFINITION. The instructions: one constructor per operation of 00_scope.md R11, over the operands of its format
(30_encoding.md R94 to R96). The opcode table has a row per operation and variant; the rows of one operation in the two
variants are one constructor here, since R11 makes them one operation and only the descriptor tells them apart (log 3).
-/

namespace Sys2Proof

/-- A decoded instruction. `ra`, `rb` are raw register-field values (not yet checked against `R`, R99, R101); `imm` is the
immediate after sign reconstruction (R98); `tgt` is unsigned (R96). `cmp` and `jr` carry the `rb` field of their format,
which they do not use (R100), so that the encoder restores it (R111). -/
inductive Instr where
  /-- R141 -/
  | add (ra rb : Nat)
  /-- R142 -/
  | sub (ra rb : Nat)
  /-- R143 -/
  | li (ra : Nat) (imm : Int)
  /-- R144 -/
  | mov (ra rb : Nat)
  /-- R145 -/
  | rand (ra : Nat) (imm : Int)
  /-- R161 -/
  | lw (ra rb : Nat)
  /-- R162 -/
  | sw (ra rb : Nat)
  /-- R170 -/
  | cmp (ra rb : Nat)
  /-- R172 -/
  | beq (ra : Nat) (imm : Int)
  /-- R173 -/
  | bne (ra : Nat) (imm : Int)
  /-- R174 -/
  | bgt (ra : Nat) (imm : Int)
  /-- R190 -/
  | j (tgt : Nat)
  /-- R191 -/
  | jal (tgt : Nat)
  /-- R192 -/
  | jr (ra rb : Nat)
  deriving DecidableEq, Repr

/-- The operation an instruction is an instance of (R11). -/
def Instr.operation : Instr → Operation
  | .add _ _ => .add
  | .sub _ _ => .sub
  | .li _ _ => .li
  | .mov _ _ => .mov
  | .rand _ _ => .rand
  | .lw _ _ => .lw
  | .sw _ _ => .sw
  | .cmp _ _ => .cmp
  | .beq _ _ => .beq
  | .bne _ _ => .bne
  | .bgt _ _ => .bgt
  | .j _ => .j
  | .jal _ => .jal
  | .jr _ _ => .jr

end Sys2Proof
end

