-- ==== Sys2Proof/WellFormed.lean ====
section
/-!
DEFINITION. When a descriptor is well formed (00_scope.md R8 and R9: "the model accepts only well-formed descriptors and
refuses any other"), and when an instruction is well formed for a descriptor (the premise of 30_encoding.md R111 (a)).
Every check is a Bool of its own, so that a test can show each one refusing.
-/

namespace Sys2Proof

/-- R9 (a): `w ≥ 1` and `lo + w ≤ N`. -/
def Field.fits (N : Nat) (f : Field) : Bool := 1 ≤ f.w && f.lo + f.w ≤ N

/-- Two fields share no bit. -/
def Field.disjoint (f g : Field) : Bool := f.lo + f.w ≤ g.lo || g.lo + g.w ≤ f.lo

/-- Every two fields of a list are disjoint. -/
def Field.allDisjoint : List Field → Bool
  | [] => true
  | f :: fs => fs.all f.disjoint && Field.allDisjoint fs

/-- R9 (f) and (d): a finite map gives a key at most one value. -/
def distinct (l : List Nat) : Bool := decide l.Nodup

/-- R8: `N ≥ 1`, `W ≥ 1`, `R ≥ 1`. -/
def Descriptor.wfSizes (D : Descriptor) : Bool := 1 ≤ D.N && 1 ≤ D.W && 1 ≤ D.R

/-- The function-code field, where the descriptor has one. -/
def Descriptor.functFields (D : Descriptor) : List Field := (D.funct.map (·.field)).toList

/-- R9 (a), for every field of the descriptor. -/
def Descriptor.wfFields (D : Descriptor) : Bool :=
  ([D.op, D.rRa, D.rRb, D.iRa, D.iImm] ++ D.functFields ++ D.jTgt.toList).all (Field.fits D.N)

/-- R9 (b): within one format the fields are pairwise disjoint and disjoint from `OP`, and in the R-format of a
descriptor with `HAS_FUNCT` also from `FUNCT`. -/
def Descriptor.wfDisjoint (D : Descriptor) : Bool :=
  Field.allDisjoint ([D.op, D.rRa, D.rRb] ++ D.functFields) &&
  Field.allDisjoint [D.op, D.iRa, D.iImm] &&
  Field.allDisjoint ([D.op] ++ D.jTgt.toList)

/-- R9 (c): `C = R − 1`, and neither `C` nor `LINK` is reserved; `LINK < R`. -/
def Descriptor.wfSpecial (D : Descriptor) : Bool :=
  D.C + 1 == D.R && (D.reserved.lookup D.C).isNone &&
  D.link.all fun l => l < D.R && (D.reserved.lookup l).isNone

/-- R9 (d), with each key once (log 8). -/
def Descriptor.wfReserved (D : Descriptor) : Bool :=
  D.reserved.all (fun p => p.1 < D.R && p.2 < 2 ^ D.W) && distinct (D.reserved.map (·.1))

/-- R9 (e): `B ≤ T`, `M*M ≤ T`, `T ≤ 2^W`. -/
def Descriptor.wfIo (D : Descriptor) : Bool := D.B ≤ D.T && D.M * D.M ≤ D.T && D.T ≤ 2 ^ D.W

/-- R9 (f): each code maps to at most one operation, each operation has at most one code, `R_OPCODE` is not itself
mapped; and every code is a value of its field (R8; log 8). -/
def Descriptor.wfOpmap (D : Descriptor) : Bool :=
  distinct (D.opmap.map (·.1)) && D.opmap.all (fun p => p.1 < 2 ^ D.op.w) &&
  decide D.operations.Nodup &&
  D.funct.all fun fc =>
    distinct (fc.ops.map (·.1)) && fc.ops.all (fun p => p.1 < 2 ^ fc.field.w) &&
    fc.rOpcode < 2 ^ D.op.w && (D.opmap.lookup fc.rOpcode).isNone

/-- R9 (g): an operation under a function code is an R-format one, and the descriptor defines what a mapped operation
needs: the J-format field, the link register for jal, the relation for cmp (R8; log 8). DESIGN CHOICE (log 18): the converse
is not asked. R8 has `J.tgt`, `LINK` and `CMP_REL` "only if" an operation uses them and R9 has no such condition; a descriptor
that defines one which no operation of `OPMAP` uses is accepted, and the field has no effect. -/
def Descriptor.wfFormats (D : Descriptor) : Bool :=
  (D.funct.all fun fc => fc.ops.all fun p => p.2.format == .R) &&
  (D.operations.all fun o => (o.format != .J || D.jTgt.isSome) && (o != .jal || D.link.isSome) &&
    (o != .cmp || D.cmpRel.isSome))

/-- R9: the descriptor is well formed. -/
def Descriptor.wf (D : Descriptor) : Bool :=
  D.wfSizes && D.wfFields && D.wfDisjoint && D.wfSpecial && D.wfReserved && D.wfIo && D.wfOpmap && D.wfFormats

/-- A raw field value is below `2^w`. -/
def Field.holds (f : Field) (v : Nat) : Bool := v < 2 ^ f.w

/-- A signed field of width `k` admits `[−2^(k−1), 2^(k−1) − 1]` (R98). -/
def Field.holdsSigned (f : Field) (v : Int) : Bool := -(2 ^ (f.w - 1) : Int) ≤ v && v ≤ 2 ^ (f.w - 1) - 1

/-- R111 (a): the field tuple of the instruction is in range. -/
def Instr.fieldsFit (D : Descriptor) : Instr → Bool
  | .add ra rb | .sub ra rb | .mov ra rb | .lw ra rb | .sw ra rb | .cmp ra rb | .jr ra rb =>
      D.rRa.holds ra && D.rRb.holds rb
  | .li ra imm | .rand ra imm | .beq ra imm | .bne ra imm | .bgt ra imm => D.iRa.holds ra && D.iImm.holdsSigned imm
  | .j tgt | .jal tgt => D.jTgt.any (·.holds tgt)

/-- R111 (a): the operation is one of `OPMAP`'s, and its fields are in range. -/
def Instr.wf (D : Descriptor) (i : Instr) : Bool := D.operations.contains i.operation && i.fieldsFit D

end Sys2Proof
end

