-- ==== Sys2Proof/Decode.lean ====
section
/-!
DEFINITION. The decoder of 30_encoding.md (field extraction, format classification, signed-immediate reconstruction,
dispatch), the encoder of R111, and the two reference descriptors with their codes (R104 to R106). The decoder is total
(R99): a word with no operation decodes to a record too, and only dispatch answers `none` for it (R102).
-/

namespace Sys2Proof

/-- `trunc_W(v)`: `v mod 2^W` in `[0, 2^W − 1]`, for negative `v` too (R13). -/
def trunc (W : Nat) (v : Int) : Nat := (v % (2 ^ W : Int)).toNat

/-- `sext_k(u)` (R13, R98). -/
def sext (k u : Nat) : Int := if u < 2 ^ (k - 1) then (u : Int) else (u : Int) - 2 ^ k

/-- `field(word, (lo, w))`, by R12's `(word div 2^lo) mod 2^w` (R91). -/
def fieldOf (word : Word) (f : Field) : Nat := word / 2 ^ f.lo % 2 ^ f.w

/-- The decoder's output record (R97). -/
structure Decoded where
  fmt : Format
  op : Nat
  funct : Option Nat
  ra : Option Nat
  rb : Option Nat
  imm : Option Int
  tgt : Option Nat
  deriving DecidableEq, Repr

/-- `HAS_FUNCT` and `op = R_OPCODE` (R93 (a)): the function codes that apply to this opcode. -/
def Descriptor.functFor (D : Descriptor) (op : Nat) : Option FunctCodes :=
  D.funct.filter fun fc => op == fc.rOpcode

/-- The format of a word with opcode `op` (R93). -/
def Descriptor.formatOf (D : Descriptor) (op : Nat) : Format :=
  if (D.functFor op).isSome then .R else ((D.opmap.lookup op).map Operation.format).getD .U

/-- The decoder: a pure, total function of the descriptor and the word (R92 to R99). -/
def decode (D : Descriptor) (word : Word) : Decoded :=
  let op := fieldOf word D.op
  match D.formatOf op with
  | .R => { fmt := .R, op := op, funct := (D.functFor op).map fun fc => fieldOf word fc.field,
            ra := some (fieldOf word D.rRa), rb := some (fieldOf word D.rRb), imm := none, tgt := none }
  | .I => { fmt := .I, op := op, funct := none, ra := some (fieldOf word D.iRa), rb := none,
            imm := some (sext D.iImm.w (fieldOf word D.iImm)), tgt := none }
  | .J => { fmt := .J, op := op, funct := none, ra := none, rb := none, imm := none,
            tgt := D.jTgt.map (fieldOf word) }
  | .U => { fmt := .U, op := op, funct := none, ra := none, rb := none, imm := none, tgt := none }

/-- The two-level dispatch of R102. `none`: the combination is unrecognized. -/
def dispatch (D : Descriptor) (d : Decoded) : Option Operation :=
  if d.fmt = .U then none
  else match D.functFor d.op with
    | some fc => d.funct.bind fun f => fc.ops.lookup f
    | none => D.opmap.lookup d.op

/-- The R-format operands of a record. -/
def Decoded.regs (d : Decoded) (mk : Nat → Nat → Instr) : Option Instr :=
  match d.ra, d.rb with
  | some ra, some rb => some (mk ra rb)
  | _, _ => none

/-- The I-format operands of a record. -/
def Decoded.regImm (d : Decoded) (mk : Nat → Int → Instr) : Option Instr :=
  match d.ra, d.imm with
  | some ra, some imm => some (mk ra imm)
  | _, _ => none

/-- The instruction of an operation and a decoded record, each with the fields of its format (R11, R94 to R96). -/
def toInstr (o : Operation) (d : Decoded) : Option Instr :=
  match o with
  | .add => d.regs .add
  | .sub => d.regs .sub
  | .li => d.regImm .li
  | .mov => d.regs .mov
  | .rand => d.regImm .rand
  | .lw => d.regs .lw
  | .sw => d.regs .sw
  | .cmp => d.regs .cmp
  | .beq => d.regImm .beq
  | .bne => d.regImm .bne
  | .bgt => d.regImm .bgt
  | .j => d.tgt.map .j
  | .jal => d.tgt.map .jal
  | .jr => d.regs .jr

/-- Decode and dispatch: the instruction a word stands for under `D`; `none` where `OPMAP` gives it no operation. -/
def decodeInstr (D : Descriptor) (word : Word) : Option Instr :=
  (dispatch D (decode D word)).bind fun o => toInstr o (decode D word)

/-! ### The encoder (R111) -/

/-- A field value at its position. -/
def place (f : Field) (v : Nat) : Nat := v <<< f.lo

/-- `op`, and `funct` for an operation under `R_OPCODE`, at their positions; `none` where `OPMAP` has no code for it. -/
def codeBits (D : Descriptor) (o : Operation) : Option Nat :=
  match D.opmap.find? (fun p => p.2 == o) with
  | some p => some (place D.op p.1)
  | none => D.funct.bind fun fc =>
      (fc.ops.find? fun p => p.2 == o).map fun p => place D.op fc.rOpcode ||| place fc.field p.1

/-- Every operand field of the format at its position, `imm` stored as `imm mod 2^k`. -/
def operandBits (D : Descriptor) : Instr → Nat
  | .add ra rb | .sub ra rb | .mov ra rb | .lw ra rb | .sw ra rb | .cmp ra rb | .jr ra rb =>
      place D.rRa ra ||| place D.rRb rb
  | .li ra imm | .rand ra imm | .beq ra imm | .bne ra imm | .bgt ra imm =>
      place D.iRa ra ||| place D.iImm (trunc D.iImm.w imm)
  | .j tgt | .jal tgt => (D.jTgt.map fun f => place f tgt).getD 0

/-- `Encode(o, fields)`: codes and operand fields at their positions, every other bit 0 (R111). -/
def encode (D : Descriptor) (i : Instr) : Option Word :=
  (codeBits D i.operation).map fun c => c ||| operandBits D i

/-- The fields of the format of a word with opcode `op` (R93 to R96); every other bit of the word is don't-care (R100). -/
def Descriptor.fieldsFor (D : Descriptor) (op : Nat) : List Field :=
  D.op :: match D.formatOf op with
    | .R => [D.rRa, D.rRb] ++ ((D.functFor op).map (·.field)).toList
    | .I => [D.iRa, D.iImm]
    | .J => D.jTgt.toList
    | .U => []

/-! ### The assembler spelling (R107) -/

/-- A register as R107 spells it. -/
def spellReg (i : Nat) : String := "r" ++ toString i

/-- An instruction as R107 spells it: immediates and targets in decimal, a branch's operand the offset. No rule depends on
it. -/
def Instr.spell : Instr → String
  | .add ra rb => "add " ++ spellReg ra ++ ", " ++ spellReg rb
  | .sub ra rb => "sub " ++ spellReg ra ++ ", " ++ spellReg rb
  | .mov ra rb => "mov " ++ spellReg ra ++ ", " ++ spellReg rb
  | .lw ra rb => "lw " ++ spellReg ra ++ ", (" ++ spellReg rb ++ ")"
  | .sw ra rb => "sw " ++ spellReg ra ++ ", (" ++ spellReg rb ++ ")"
  | .cmp ra _ => "cmp " ++ spellReg ra
  | .li ra imm => "li " ++ spellReg ra ++ ", " ++ toString imm
  | .rand ra imm => "rand " ++ spellReg ra ++ ", " ++ toString imm
  | .beq ra imm => "beq " ++ spellReg ra ++ ", " ++ toString imm
  | .bne ra imm => "bne " ++ spellReg ra ++ ", " ++ toString imm
  | .bgt ra imm => "bgt " ++ spellReg ra ++ ", " ++ toString imm
  | .j tgt => "j " ++ toString tgt
  | .jal tgt => "jal " ++ toString tgt
  | .jr ra _ => "jr " ++ spellReg ra

/-! ### The reference descriptors -/

/-- ARCH8, the reference descriptor of the 8-bit variant (R104, R106, D1). -/
def arch8 : Descriptor where
  N := 16
  W := 8
  R := 16
  B := 4
  M := 10
  T := 100
  op := ⟨12, 4⟩
  funct := some { rOpcode := 0, field := ⟨0, 4⟩,
                  ops := [(0, .add), (1, .sub), (2, .mov), (3, .lw), (4, .sw), (5, .cmp)] }
  rRa := ⟨8, 4⟩
  rRb := ⟨4, 4⟩
  iRa := ⟨8, 4⟩
  iImm := ⟨0, 8⟩
  jTgt := none
  opmap := [(1, .li), (2, .beq), (3, .bne), (4, .bgt), (5, .rand)]
  C := 15
  link := none
  reserved := []
  randMode := .mask
  cmpRel := some .eq
  cExplicitWrite := .write
  unrecognized := .fault

/-- ARCH16, the reference descriptor of the 16-bit variant (R105, R106, D2). -/
def arch16 : Descriptor where
  N := 16
  W := 16
  R := 16
  B := 8
  M := 16
  T := 256
  op := ⟨12, 4⟩
  funct := none
  rRa := ⟨8, 4⟩
  rRb := ⟨4, 4⟩
  iRa := ⟨8, 4⟩
  iImm := ⟨0, 8⟩
  jTgt := some ⟨0, 12⟩
  opmap := [(0, .add), (1, .sub), (2, .mov), (3, .lw), (4, .sw), (5, .li), (6, .beq), (7, .bne), (8, .bgt), (9, .rand),
            (10, .j), (11, .jal), (12, .jr)]
  C := 15
  link := some 14
  reserved := [(0, 0), (1, 1)]
  randMode := .bound
  cmpRel := none
  cExplicitWrite := .write
  unrecognized := .fault

/-- DESIGN CHOICE (log 2): the descriptor of the machine that `State.reset` builds. D0 leaves the real one open. -/
def resetArch : Descriptor := arch8

/-! ### The opcode table's words -/

/-- The low `nbits` bits of `w`; every bit above them is 0. -/
def tableWord (nbits w : Nat) : Word := w % 2 ^ nbits

/-- DESIGN CHOICE (log 2): the opcode table holds rows of both variants and its words do not say which. A word is read
under ARCH8, and under ARCH16 where ARCH8 does not recognize it. -/
def tableArch (word : Word) : Descriptor :=
  if (decodeInstr arch8 word).isSome then arch8 else arch16

/-- The instruction the decoder reads from an opcode-table word. -/
def decodeTableWord (nbits w : Nat) : Option Instr :=
  decodeInstr (tableArch (tableWord nbits w)) (tableWord nbits w)

end Sys2Proof
end

