-- ==== Sys2Proof/Machine/State.lean ====
section
/-!
DEFINITION. The state of the block (10_state.md), the fault records of 60_exceptions.md R200 and R207, the reasons a step
can stop, and the state at creation and reset (R50, R231).
-/

namespace Sys2Proof.Machine

/-- Which side of the I/O decode raised an IOAddressError (R200). -/
inductive Access where
  | load | store
  deriving DecidableEq, Repr

/-- The register field a BadRegister names (R200). -/
inductive RegField where
  | ra | rb
  deriving DecidableEq, Repr

/-- A fault record: the fault and the fields of R200's last column (R207). -/
inductive FaultRecord where
  /-- code 1, raised by fetch: the `pc` value -/
  | addressFault (pc : Int)
  /-- code 2, raised by dispatch under `UNRECOGNIZED = fault`: `p`, the word, `op`, `funct` -/
  | unrecognizedInstruction (p : Int) (word op : Nat) (funct : Option Nat)
  /-- code 3, raised by lw and sw: `p`, `ea`, and which of the two -/
  | ioAddressError (p : Int) (ea : Nat) (access : Access)
  /-- code 4, raised by an operation that uses a register field: `p`, the field, its value -/
  | badRegister (p : Int) (field : RegField) (value : Nat)
  /-- code 5, raised by rand in `bound` mode: `p`, `imm` -/
  | randBound (p imm : Int)
  deriving DecidableEq, Repr

/-- The state of the block. `arch` is configuration that no step changes (R7, log 1); `draws` counts the random draws and
is the model's own (log 5); every other field is an element of 10_state.md's tuple. -/
structure State where
  /-- the Architecture Descriptor `D` (R7) -/
  arch : Descriptor
  /-- index of the next instruction to fetch, of unbounded width (R37) -/
  pc : Int
  /-- the register file, `R` values of `W` bits (R30, R32) -/
  x : List Nat
  /-- the data memory (R42): the cells that are not 0, in rising order of address -/
  mem : List Cell
  /-- the button latches (R43); `true` is 1 -/
  buttons : List Bool
  /-- the display grid, `M` rows of `M` cells (R44) -/
  display : List (List Nat)
  /-- the instruction store (R41) -/
  is : List Word
  /-- the run status (R47) -/
  fault : Option FaultRecord
  /-- how many random draws have been made -/
  draws : Nat
  deriving DecidableEq, Repr

/-- Why a step answers `fault`. -/
inductive Fault where
  /-- Raised by `step` alone, where `s.fault` holds a record: the block has no step until reset or load, and the request
  returns the stored record (R206, R238). The step that RAISED the fault is a next state that holds the record (log 4).
  Safe: nothing can be proved of what the block does after it (I16). -/
  | stopped (record : FaultRecord)
  deriving DecidableEq, Repr

/-- Why a step answers `refused`. -/
inductive Refusal where
  /-- An instruction that has no meaning yet; no arm of `exec` answers it in this model. Safe. -/
  | notModelled (mnemonic : String)
  /-- Raised by `step` alone: the descriptor is not well formed, and "the model accepts only well-formed descriptors and
  refuses any other" (R9). Safe. -/
  | illFormedDescriptor
  /-- Raised by cmp under a descriptor with no `CMP_REL` and by jal under one with no `LINK` (R8: the field exists only
  where the operation is in `OPMAP`): the variant does not have the instruction. A step under a well-formed descriptor
  never dispatches to it (log 10). Safe. -/
  | notInVariant (operation : Operation)
  deriving DecidableEq, Repr

/-- The block at creation under descriptor `D`: every element at its reset value of R50 and an empty instruction store
(R231). A reserved index holds its constant (R232, log 13). -/
def State.create (D : Descriptor) : State where
  arch := D
  pc := 0
  x := (List.range D.R).map fun i => (D.reserved.lookup i).getD 0
  mem := []
  buttons := List.replicate D.B false
  display := List.replicate D.M (List.replicate D.M 0)
  is := []
  fault := none
  draws := 0

/-- The machine right after reset: the block at creation, under the descriptor log 2 names. No program is loaded (R231),
so a step from here raises AddressFault (log 9). -/
def State.reset : State := State.create resetArch

end Sys2Proof.Machine
end

