-- ==== Sys2Proof/Machine/Ops.lean ====
section
/-!
DEFINITION. The named operations over registers, memory, devices and the instruction store (00_scope.md R14, R15,
10_state.md, 20_memory.md), and raising a fault (60_exceptions.md R206).
-/

namespace Sys2Proof.Machine

/-! ### Program counter -/

/-- `pc <- p + 1`: what every instruction that does not transfer control leaves (R38). -/
def State.advance (s : State) : State := { s with pc := s.pc + 1 }

/-- `pc <- target` (R16). -/
def State.jumpTo (s : State) (target : Int) : State := { s with pc := target }

/-! ### Registers -/

/-- `x[i]`: a reserved register reads its constant, any other the value the file holds (R14, R34). An index outside the
file reads 0; no instruction reads one (R101). -/
def State.readReg (s : State) (i : Nat) : Nat := (s.arch.reserved.lookup i).getD (s.x.getD i 0)

/-- The writes the primitive `x[i] <- v` drops (R33). -/
def dropsWrite (D : Descriptor) (i : Nat) : Bool :=
  (D.reserved.lookup i).isSome || (i == D.C && D.cExplicitWrite == .drop)

/-- `x[i] := trunc_W(v)`. -/
def State.setReg (s : State) (i : Nat) (v : Int) : State := { s with x := s.x.set i (trunc s.arch.W v) }

/-- `x[i] <- v` (R33). -/
def State.writeReg (s : State) (i : Nat) (v : Int) : State :=
  if dropsWrite s.arch i then s else s.setReg i v

/-- `x_C[C] <- v`, the write of cmp, which is never dropped (R33). -/
def State.writeC (s : State) (v : Int) : State := s.setReg s.arch.C v

/-! ### Data memory -/

/-- The value of a data-memory cell; a cell that is not listed is 0 (R50). -/
def Memory.read : List Cell → Nat → Nat
  | [], _ => 0
  | c :: cs, a => if c.1 = a then c.2 else Memory.read cs a

/-- `mem[a] := v`, keeping the list in rising order and free of zeros. -/
def Memory.write : List Cell → Nat → Nat → List Cell
  | [], a, v => if v = 0 then [] else [(a, v)]
  | c :: cs, a, v =>
    if c.1 < a then c :: Memory.write cs a v
    else if c.1 = a then (if v = 0 then cs else (a, v) :: cs)
    else if v = 0 then c :: cs
    else (a, v) :: c :: cs

/-- The canonical form of the data memory: addresses strictly rising, and no cell that holds what an unlisted one reads
as. -/
abbrev Memory.wf (m : List Cell) : Prop := m.Pairwise (fun c d => c.1 < d.1) ∧ ∀ c ∈ m, c.2 ≠ 0

/-! ### Devices and the I/O decode -/

/-- A button latch, 0 or 1 (R43). -/
def State.button (s : State) (a : Nat) : Nat := (s.buttons.getD a false).toNat

/-- `display[row][col]` (R44). -/
def State.displayCell (s : State) (row col : Nat) : Nat := (s.display.getD row []).getD col 0

/-- `display[row][col] := v`. -/
def State.setDisplay (s : State) (row col v : Nat) : State :=
  { s with display := s.display.modify row fun cells => cells.set col v }

/-- `MemRead(a, 1)` (R63); `none` is the I/O addressing error. -/
def State.memRead (s : State) (a : Nat) : Option Nat :=
  if a < s.arch.B then some (s.button a)
  else if a < s.arch.T then none
  else some (Memory.read s.mem a)

/-- `MemWrite(a, 1, v)` (R64); `none` is the I/O addressing error. -/
def State.memWrite (s : State) (a v : Nat) : Option State :=
  if a < s.arch.M * s.arch.M then some (s.setDisplay (a / s.arch.M) (a % s.arch.M) v)
  else if a < s.arch.T then none
  else some { s with mem := Memory.write s.mem a v }

/-! ### Random draws -/

/-- The value rand takes from the raw draw `u`, by `RAND_MODE` (R145): any `W`-bit value, the same under the mask, or one
in `[0, imm]`; `none` where that range is empty. -/
def drawnValue (D : Descriptor) (imm : Int) (u : Nat) : Option Nat :=
  match D.randMode with
  | .none => some (u % 2 ^ D.W)
  | .mask => some (u % 2 ^ D.W &&& trunc D.W imm)
  | .bound => if imm < 0 then none else some (u % (imm.toNat + 1))

/-- One draw has been made (log 5). -/
def State.countDraw (s : State) : State := { s with draws := s.draws + 1 }

/-! ### Faults -/

/-- `raise F(info)`: nothing of the step is committed, and `fault` holds the record (R206). It is the one operation by which
any fault is taken. -/
def State.raise (s : State) (r : FaultRecord) : State := { s with fault := some r }

/-- The code R200 gives the fault. -/
def FaultRecord.code : FaultRecord → Nat
  | .addressFault _ => 1
  | .unrecognizedInstruction _ _ _ _ => 2
  | .ioAddressError _ _ _ => 3
  | .badRegister _ _ _ => 4
  | .randBound _ _ => 5

/-- The name R200 gives the fault. -/
def FaultRecord.name : FaultRecord → String
  | .addressFault _ => "AddressFault"
  | .unrecognizedInstruction _ _ _ _ => "UnrecognizedInstruction"
  | .ioAddressError _ _ _ => "IOAddressError"
  | .badRegister _ _ _ => "BadRegister"
  | .randBound _ _ => "RandBound"

/-- The address the record holds (R207): the faulting instruction's, or the out-of-store `pc`. -/
def FaultRecord.p : FaultRecord → Int
  | .addressFault pc => pc
  | .unrecognizedInstruction p _ _ _ => p
  | .ioAddressError p _ _ => p
  | .badRegister p _ _ => p
  | .randBound p _ => p

/-! ### Fetch and unrecognized words -/

/-- `Fetch(pc)` (R40); `none` is the AddressFault. -/
def State.fetch (s : State) : Option Word := if s.pc < 0 then none else s.is[s.pc.toNat]?

/-- A word that `OPMAP` gives no operation (R103): a fault, or a no-op that advances `pc`. -/
def State.unrecognizedWord (s : State) (word : Word) : State :=
  match s.arch.unrecognized with
  | .fault => s.raise (.unrecognizedInstruction s.pc word (decode s.arch word).op (decode s.arch word).funct)
  | .nop => s.advance

end Sys2Proof.Machine
end

