-- ==== Sys2Proof/Machine/Operands.lean ====
section
/-!
DEFINITION. The operand forms: the check of a used register field against `R` (30_encoding.md R101, R109), and the one
addressing mode, register indirect (41_memory_access.md R160).
-/

namespace Sys2Proof.Machine

/-- A used register field: BadRegister where its value is `≥ R` (R101), else the operation goes on. -/
def checkReg (s : State) (field : RegField) (i : Nat) (k : Host.Outcome State Fault Refusal) :
    Host.Outcome State Fault Refusal :=
  if i < s.arch.R then k else .next (s.raise (.badRegister s.pc field i))

/-- The operations that use `ra` and `rb` (R102), checked in that order (log 7). -/
def checkRegs (s : State) (ra rb : Nat) (k : Host.Outcome State Fault Refusal) : Host.Outcome State Fault Refusal :=
  checkReg s .ra ra (checkReg s .rb rb k)

/-- `ea = x[rb]` (R160). -/
def State.effectiveAddress (s : State) (rb : Nat) : Nat := s.readReg rb

end Sys2Proof.Machine
end

