-- ==== Sys2Proof/Machine/Arith.lean ====
section
/-!
DEFINITION. Arithmetic, move and random: the meanings of 40_arithmetic.md. In every meaning `s` is the state before the step,
so `s.pc` is the instruction's address `p`, every operand is read from `s`, and the writes land together (R110; log 14).
-/

namespace Sys2Proof.Machine

/-- The end of an instruction whose one effect is `x[ra] <- v`: the register write, and `pc <- p + 1` (R33, R38). -/
def State.writeBack (s : State) (ra : Nat) (v : Int) : Host.Outcome State Fault Refusal :=
  .next (s.writeReg ra v).advance

/-- `add ra, rb`: `x[ra] <- x[ra] + x[rb]` (R141). -/
def execAdd (ra rb : Nat) (s : State) : Host.Outcome State Fault Refusal :=
  checkRegs s ra rb (s.writeBack ra ((s.readReg ra : Int) + s.readReg rb))

/-- `sub ra, rb`: `x[ra] <- x[ra] − x[rb]` (R142). -/
def execSub (ra rb : Nat) (s : State) : Host.Outcome State Fault Refusal :=
  checkRegs s ra rb (s.writeBack ra ((s.readReg ra : Int) - s.readReg rb))

/-- `li ra, imm`: `x[ra] <- imm` (R143). -/
def execLi (ra : Nat) (imm : Int) (s : State) : Host.Outcome State Fault Refusal :=
  checkReg s .ra ra (s.writeBack ra imm)

/-- `mov ra, rb`: `x[ra] <- x[rb]` (R144). -/
def execMov (ra rb : Nat) (s : State) : Host.Outcome State Fault Refusal :=
  checkRegs s ra rb (s.writeBack ra (s.readReg rb))

/-- `rand ra, imm` on the raw draw `u` (R145): the draw happens also where the write of its value is dropped. -/
def randWith (u ra : Nat) (imm : Int) (s : State) : Host.Outcome State Fault Refusal :=
  match drawnValue s.arch imm u with
  | none => .next (s.raise (.randBound s.pc imm))
  | some v => s.countDraw.writeBack ra v

/-- `rand ra, imm` (R145), the draw a free value (R16, log 5). -/
def execRand (ra : Nat) (imm : Int) (s : State) : Host.Outcome State Fault Refusal :=
  checkReg s .ra ra (randWith (Config.freeDraw s.draws) ra imm s)

end Sys2Proof.Machine
end

