-- ==== Sys2Proof/Machine/Flags.lean ====
section
/-!
DEFINITION. The hardware has no status flags (10_state.md R45): no instruction computes one. What stands in their place are
the comparisons of a register with the implicit comparison register `C`, on the stored values read as unsigned numbers (R13,
R32): the relation of cmp and the conditions of the branches.
-/

namespace Sys2Proof.Machine

/-- `CMP_REL` on two stored values (42_compare_branch.md R170). -/
def relHolds (rel : CmpRel) (a b : Nat) : Bool :=
  match rel with
  | .eq => a == b
  | .ne => a != b
  | .gt => b < a

/-- `b2i` (R13). -/
def b2i (b : Bool) : Int := if b then 1 else 0

/-- A relation between `x[ra]` (left) and `x[C]` (right), as cmp and every branch test it (R170, R171). -/
def State.compare (s : State) (rel : CmpRel) (ra : Nat) : Bool :=
  relHolds rel (s.readReg ra) (s.readReg s.arch.C)

end Sys2Proof.Machine
end

