-- ==== Sys2Proof/Machine/CompareBranch.lean ====
section
/-!
DEFINITION. Comparison and conditional branches: the meanings of 42_compare_branch.md.
-/

namespace Sys2Proof.Machine

/-- `cmp ra` (R170): `x_C[C] <- b2i(x[ra] REL x[C])`. The `rb` field is don't-care. -/
def execCmp (ra _rb : Nat) (s : State) : Host.Outcome State Fault Refusal :=
  checkReg s .ra ra <|
    match s.arch.cmpRel with
    | none => .refused (.notInVariant .cmp)
    | some rel => .next (s.writeC (b2i (s.compare rel ra))).advance

/-- A conditional branch (R171): taken, `pc = p + 1 + imm`; else `pc = p + 1`. The target is not checked. -/
def State.branch (s : State) (rel : CmpRel) (ra : Nat) (imm : Int) : Host.Outcome State Fault Refusal :=
  .next (s.jumpTo (if s.compare rel ra then s.pc + 1 + imm else s.pc + 1))

/-- `beq ra, imm` (R172). -/
def execBeq (ra : Nat) (imm : Int) (s : State) : Host.Outcome State Fault Refusal :=
  checkReg s .ra ra (s.branch .eq ra imm)

/-- `bne ra, imm` (R173). -/
def execBne (ra : Nat) (imm : Int) (s : State) : Host.Outcome State Fault Refusal :=
  checkReg s .ra ra (s.branch .ne ra imm)

/-- `bgt ra, imm` (R174), unsigned. -/
def execBgt (ra : Nat) (imm : Int) (s : State) : Host.Outcome State Fault Refusal :=
  checkReg s .ra ra (s.branch .gt ra imm)

end Sys2Proof.Machine
end

