-- ==== Sys2Proof/Machine/Jump.lean ====
section
/-!
DEFINITION. Jumps: the meanings of 43_jumps.md. Targets are absolute and are not checked at the jump (R193).
-/

namespace Sys2Proof.Machine

/-- `j tgt` (R190). -/
def execJ (tgt : Nat) (s : State) : Host.Outcome State Fault Refusal := .next (s.jumpTo tgt)

/-- `jal tgt` (R191): `x[LINK] <- p + 1`, then `pc <- tgt`. -/
def execJal (tgt : Nat) (s : State) : Host.Outcome State Fault Refusal :=
  match s.arch.link with
  | none => .refused (.notInVariant .jal)
  | some l => .next ((s.writeReg l (s.pc + 1)).jumpTo tgt)

/-- `jr ra` (R192): `pc <- x[ra]`. The `rb` field is don't-care. -/
def execJr (ra _rb : Nat) (s : State) : Host.Outcome State Fault Refusal :=
  checkReg s .ra ra (.next (s.jumpTo (s.readReg ra)))

end Sys2Proof.Machine
end

