-- ==== Sys2Proof/Machine/LoadStore.lean ====
section
/-!
DEFINITION. Loads and stores: the meanings of 41_memory_access.md over the I/O decode of 20_memory.md R62 to R64.
-/

namespace Sys2Proof.Machine

/-- `lw ra, (rb)` (R161). The load and its fault check happen also where the write is dropped. -/
def execLw (ra rb : Nat) (s : State) : Host.Outcome State Fault Refusal :=
  checkRegs s ra rb <|
    match s.memRead (s.effectiveAddress rb) with
    | none => .next (s.raise (.ioAddressError s.pc (s.effectiveAddress rb) .load))
    | some v => s.writeBack ra v

/-- `sw ra, (rb)` (R162). -/
def execSw (ra rb : Nat) (s : State) : Host.Outcome State Fault Refusal :=
  checkRegs s ra rb <|
    match s.memWrite (s.effectiveAddress rb) (s.readReg ra) with
    | none => .next (s.raise (.ioAddressError s.pc (s.effectiveAddress rb) .store))
    | some t => .next t.advance

end Sys2Proof.Machine
end

