-- ==== Sys2Proof/Machine/Dispatch.lean ====
section
/-! DEFINITION. One arm per instruction, each one direct call of its meaning. -/

namespace Sys2Proof.Machine

def exec (i : Instr) (s : State) : Host.Outcome State Fault Refusal :=
  match i with
  -- 40_arithmetic.md
  | .add ra rb => Sys2Proof.Machine.execAdd ra rb s
  | .sub ra rb => Sys2Proof.Machine.execSub ra rb s
  | .li ra imm => Sys2Proof.Machine.execLi ra imm s
  | .mov ra rb => Sys2Proof.Machine.execMov ra rb s
  | .rand ra imm => Sys2Proof.Machine.execRand ra imm s
  -- 41_memory_access.md
  | .lw ra rb => Sys2Proof.Machine.execLw ra rb s
  | .sw ra rb => Sys2Proof.Machine.execSw ra rb s
  -- 42_compare_branch.md
  | .cmp ra rb => Sys2Proof.Machine.execCmp ra rb s
  | .beq ra imm => Sys2Proof.Machine.execBeq ra imm s
  | .bne ra imm => Sys2Proof.Machine.execBne ra imm s
  | .bgt ra imm => Sys2Proof.Machine.execBgt ra imm s
  -- 43_jumps.md
  | .j tgt => Sys2Proof.Machine.execJ tgt s
  | .jal tgt => Sys2Proof.Machine.execJal tgt s
  | .jr ra rb => Sys2Proof.Machine.execJr ra rb s

end Sys2Proof.Machine
end

