-- ==== Sys2Proof/Machine/Step.lean ====
section
/-!
DEFINITION. One step of the block: the fetch-decode-execute cycle of 30_encoding.md R109, and where the opcode table's words
are placed so that a step fetches them.
-/

namespace Sys2Proof.Machine

/-- `Step` of R109 on a block that may step: fetch, decode, dispatch, execute. -/
def State.cycle (s : State) : Host.Outcome State Fault Refusal :=
  match s.fetch with
  | none => .next (s.raise (.addressFault s.pc))
  | some word =>
    match decodeInstr s.arch word with
    | none => .next (s.unrecognizedWord word)
    | some i => exec i s

/-- One step (R109, R206, R238): refused under an ill-formed descriptor (R9), stopped while a fault is recorded (R206), else
one cycle. -/
def step (s : State) : Host.Outcome State Fault Refusal :=
  if s.arch.wf then
    match s.fault with
    | some r => .fault (.stopped r)
    | none => s.cycle
  else .refused .illFormedDescriptor

/-- A word put at `pc` in the instruction store, a store that is too short made long enough with words of 0, and a negative
`pc` set to the entry point: what the next fetch reads (R40). -/
def State.placeWord (s : State) (word : Word) : State :=
  { s with
    pc := s.pc.toNat
    is := (s.is ++ List.replicate (s.pc.toNat + 1 - s.is.length) 0).set s.pc.toNat (word % 2 ^ s.arch.N)
    fault := none }

/-- `s` with an opcode-table word where `step` fetches its next instruction. It stands for the host's load (R234, log 9).
Where the word is one of the other variant's (`tableArch`, log 2), the block is one of that variant, at creation. -/
def State.withFetchWord (s : State) (nbits w : Nat) : State :=
  let D := tableArch (tableWord nbits w)
  (if s.arch = D then s else State.create D).placeWord (tableWord nbits w)

end Sys2Proof.Machine
end

