-- ==== Sys2Proof/Machine/RunControl.lean ====
section
/-!
DEFINITION. The host interface that drives the block (70_reset_and_hazards.md R234 to R243, R247): reset, load, set_buttons,
snapshot, step, step_n, run_until and watch. Each operation is a function of the state between two steps; the host sends
nothing while a step runs (R78, R236).
-/

namespace Sys2Proof.Machine

/-- What a host operation returns beside the state it leaves (R243). -/
inductive Reply where
  | ok
  /-- R235: a host-level error, not a fault of the block -/
  | loadError
  /-- R236 -/
  | validationError
  /-- a fault record, of the step that raised it or of an earlier one (R206, R238) -/
  | faulted (record : FaultRecord)
  /-- the step is refused for another reason than a fault -/
  | refused (reason : Refusal)
  /-- run_until ran out of fuel: "not finished", not a state of the block (R240) -/
  | notFinished
  deriving DecidableEq, Repr

/-- The Run Controller's states (R247). -/
inductive RunPhase where
  | idle | running
  deriving DecidableEq, Repr

/-- The phase a reply leaves the Run Controller in: Running while a run operation has not returned, else Idle (R230,
R247). -/
def Reply.phase : Reply → RunPhase
  | .notFinished => .running
  | _ => .idle

/-- What a full CPU-state reset leaves (R230): every CPU-owned element at its reset value, the instruction store untouched,
`fault` cleared. The descriptor stays, and so does the count of draws, which is no element of the block (log 5). -/
def State.cpuReset (s : State) : State := { State.create s.arch with is := s.is, draws := s.draws }

/-- `reset()` (R230): the full reset; the block returns ok (R243), which leaves the Run Controller Idle. -/
def State.hostReset (s : State) : Reply × State := (.ok, s.cpuReset)

/-- The file a load reads, after its parsing, which is out of scope (R6 (c)): missing, or its tokens in order, `none` for a
malformed one (R235). -/
inductive LoadFile where
  | missing
  | tokens (ts : List (Option Nat))
  deriving DecidableEq, Repr

/-- The words of a file whose every token is an `N`-bit word (R235). -/
def LoadFile.words (N : Nat) : LoadFile → Option (List Word)
  | .missing => none
  | .tokens ts => ts.mapM fun t => t.filter fun w => w < 2 ^ N

/-- `load(file)` (R234, R235): all or nothing; the words replace the whole store, and the block is reset. -/
def State.hostLoad (s : State) (file : LoadFile) : Reply × State :=
  match file.words s.arch.N with
  | none => (.loadError, s)
  | some ws => (.ok, { s.cpuReset with is := ws })

/-- `set_buttons(s)` (R236): exactly `B` characters, each 0 or 1, or nothing changes. -/
def State.hostSetButtons (s : State) (cs : List Char) : Reply × State :=
  if cs.length = s.arch.B ∧ ∀ c ∈ cs, c = '0' ∨ c = '1' then
    (.ok, { s with buttons := cs.map fun c => c == '1' })
  else (.validationError, s)

/-- `step()` (R238): the new state, or the fault record; refused while a fault is recorded. -/
def State.hostStep (s : State) : Reply × State :=
  match step s with
  | .next t =>
    match t.fault with
    | some r => (.faulted r, t)
    | none => (.ok, t)
  | .fault (.stopped r) => (.faulted r, s)
  | .refused r => (.refused r, s)

/-- `step_n(count)` (R239): `count` cycles one after another; a fault aborts the remaining ones. DESIGN CHOICE (log 19): with
`count = 0` "nothing happens", and the reply is ok, also in a stopped block: no step is requested that R206 could refuse. -/
def State.hostStepN : Nat → State → Reply × State
  | 0, s => (.ok, s)
  | n + 1, s =>
    match s.hostStep with
    | (.ok, t) => State.hostStepN n t
    | answer => answer

/-- `run_until(target)` (R240) under fuel: one step unconditionally, then steps until `pc = target`; no cycle cap of its
own. -/
def State.hostRunUntil (target : Int) : Nat → State → Reply × State
  | 0, s => (.notFinished, s)
  | fuel + 1, s =>
    match s.hostStep with
    | (.ok, t) => if t.pc = target then (.ok, t) else State.hostRunUntil target fuel t
    | answer => answer

/-- `watch(count, sample_period, delay)` changes the state exactly as `step_n(count)` does (R241); its snapshots and its
pacing are out of scope (R6 (d)). A count of 0 replies as there (log 19). -/
def State.hostWatch (count _samplePeriod _delay : Nat) (s : State) : Reply × State := s.hostStepN count

/-! ### The Run Controller (R247) -/

/-- A run operation that has not returned, with what is left of it. `step` is `stepN 1` and `watch` is `stepN` of its count
(R238, R241). -/
inductive RunOp where
  | stepN (left : Nat)
  | runUntil (target : Int)
  deriving DecidableEq, Repr

/-- The Run Controller and the block it drives; `running` is the run operation inside which cycles are executed. It is no
element of the block (C10, log 11). -/
structure RunController where
  block : State
  running : Option RunOp
  deriving DecidableEq, Repr

/-- Idle or Running (R247). -/
def RunController.phase (c : RunController) : RunPhase :=
  match c.running with
  | none => .idle
  | some _ => .running

/-- At creation, no instruction store loaded: Idle (R231, R247). -/
def RunController.create (D : Descriptor) : RunController := { block := State.create D, running := none }

/-- A host operation that has returned: its reply, and the controller Idle on the block it leaves. -/
def RunController.returned (answer : Reply × State) : Reply × RunController :=
  (answer.1, { block := answer.2, running := none })

/-- `reset()`: Running or Idle, the controller is Idle after it (R230, R247). -/
def RunController.reset (c : RunController) : Reply × RunController := RunController.returned c.block.hostReset

/-- `load(file)`: on success it "immediately forces a full CPU-state reset" (R234), and so Idle; a load error changes nothing
(R235). -/
def RunController.load (c : RunController) (file : LoadFile) : Reply × RunController :=
  match c.block.hostLoad file with
  | (.ok, t) => RunController.returned (.ok, t)
  | (answer, t) => (answer, { c with block := t })

/-- `set_buttons(s)`: it may come between two cycles of a run (R236, R242) and leaves the phase. -/
def RunController.setButtons (c : RunController) (cs : List Char) : Reply × RunController :=
  ((c.block.hostSetButtons cs).1, { c with block := (c.block.hostSetButtons cs).2 })

/-- The host starts a run operation; `none` while one is running: "only one run operation runs at a time" (R247). -/
def RunController.start (c : RunController) (op : RunOp) : Option RunController :=
  match c.running with
  | none => some { c with running := some op }
  | some _ => none

/-- One cycle inside the run operation, and its reply where the operation returns (R239, R240); a step_n with no cycle left
returns ok (log 19); an Idle controller makes none. -/
def RunController.cycle (c : RunController) : Option Reply × RunController :=
  match c.running with
  | none => (none, c)
  | some (.stepN 0) => (some .ok, { c with running := none })
  | some (.stepN (left + 1)) =>
    match c.block.hostStep with
    | (.ok, t) => (none, { block := t, running := some (.stepN left) })
    | (answer, t) => (some answer, { block := t, running := none })
  | some (.runUntil target) =>
    match c.block.hostStep with
    | (.ok, t) =>
      if t.pc = target then (some .ok, { block := t, running := none })
      else (none, { block := t, running := some (.runUntil target) })
    | (answer, t) => (some answer, { block := t, running := none })

/-- At most `fuel` cycles, up to the reply of the run operation; `none` where it has not returned. -/
def RunController.drive : Nat → RunController → Option Reply × RunController
  | 0, c => (none, c)
  | fuel + 1, c =>
    match c.cycle with
    | (some answer, d) => (some answer, d)
    | (none, d) => RunController.drive fuel d

/-! ### Snapshots -/

/-- What a snapshot holds (R237): the register file as it reads, every other element as it is. -/
structure Snapshot where
  pc : Int
  is : List Word
  x : List Nat
  mem : List Cell
  buttons : List Bool
  display : List (List Nat)
  fault : Option FaultRecord
  deriving DecidableEq, Repr

/-- The snapshot of a state; taking it changes nothing (R237). -/
def State.snapshot (s : State) : Snapshot where
  pc := s.pc
  is := s.is
  x := (List.range s.arch.R).map s.readReg
  mem := s.mem
  buttons := s.buttons
  display := s.display
  fault := s.fault

end Sys2Proof.Machine
end

