-- ==== Sys2Proof/Safety.lean ====
section
/-!
DEFINITION. What holds of every state of a run (10_state.md R49), what a fault's cause is (60_exceptions.md R200, R208), and
the vocabulary the statements use for what an instruction changes and leaves.
-/

namespace Sys2Proof.Machine

/-- The invariants of R49, and those of the model's representation: a reserved index of the file holds its constant
(log 13), the memory list is in canonical form, and the cells below `T` are 0 (R65). The sentence of R49 on `pc` is not
an invariant; it is said of a step. -/
structure State.Inv (s : State) : Prop where
  archWf : s.arch.wf = true
  regCount : s.x.length = s.arch.R
  regRange : ∀ v ∈ s.x, v < 2 ^ s.arch.W
  reservedHeld : ∀ p ∈ s.arch.reserved, s.x[p.1]? = some p.2
  memForm : Memory.wf s.mem
  memRange : ∀ c ∈ s.mem, s.arch.T ≤ c.1 ∧ c.1 < 2 ^ s.arch.W ∧ c.2 < 2 ^ s.arch.W
  buttonCount : s.buttons.length = s.arch.B
  rowCount : s.display.length = s.arch.M
  columnCount : ∀ row ∈ s.display, row.length = s.arch.M
  displayRange : ∀ row ∈ s.display, ∀ v ∈ row, v < 2 ^ s.arch.W
  storeRange : ∀ w ∈ s.is, w < 2 ^ s.arch.N

/-- The block may step (R47, R206): its descriptor is well formed and no fault is recorded. -/
def State.mayStep (s : State) : Prop := s.arch.wf = true ∧ s.fault = none

/-- A safe step: a next state with no fault recorded. D7: claims about a run take this as a premise. -/
def State.stepsSafely (s : State) : Prop := ∃ t, step s = .next t ∧ t.fault = none

/-! ### Frames -/

/-- No register changes, as it reads. -/
def SameRegs (s t : State) : Prop := ∀ j, t.readReg j = s.readReg j

/-- `x[i] <- v` and no other register: the write lands truncated unless R33 drops it. -/
def RegWritten (s t : State) (i : Nat) (v : Int) : Prop :=
  ∀ j, t.readReg j = if j = i ∧ dropsWrite s.arch i = false then trunc s.arch.W v else s.readReg j

/-- No data-memory cell changes. -/
def SameMemory (s t : State) : Prop := ∀ a, Memory.read t.mem a = Memory.read s.mem a

/-- No display cell changes. -/
def SameDisplay (s t : State) : Prop := ∀ row col, t.displayCell row col = s.displayCell row col

/-- What no fault-free execution of an instruction changes: the descriptor, the button latches, the instruction store and
the run status. -/
def SameHostSide (s t : State) : Prop :=
  t.arch = s.arch ∧ t.buttons = s.buttons ∧ t.is = s.is ∧ t.fault = s.fault

/-! ### Used register fields and fault causes -/

/-- The value of the field `ra`, where the operation uses it (R102). -/
def Instr.usedRa : Instr → Option Nat
  | .add ra _ | .sub ra _ | .mov ra _ | .lw ra _ | .sw ra _ | .cmp ra _ | .jr ra _ => some ra
  | .li ra _ | .rand ra _ | .beq ra _ | .bne ra _ | .bgt ra _ => some ra
  | .j _ | .jal _ => none

/-- The value of the field `rb`, where the operation uses it (R102). -/
def Instr.usedRb : Instr → Option Nat
  | .add _ rb | .sub _ rb | .mov _ rb | .lw _ rb | .sw _ rb => some rb
  | .cmp _ _ | .jr _ _ | .li _ _ | .rand _ _ | .beq _ _ | .bne _ _ | .bgt _ _ | .j _ | .jal _ => none

/-- The register an instruction writes (R141 to R145, R161, R170, R191): the field `ra`, `C` for cmp, `LINK` for jal; a store,
a branch, j and jr write none. -/
def Instr.destination (D : Descriptor) : Instr → Option Nat
  | .add ra _ | .sub ra _ | .mov ra _ | .lw ra _ => some ra
  | .li ra _ | .rand ra _ => some ra
  | .cmp _ _ => some D.C
  | .jal _ => D.link
  | .sw _ _ | .beq _ _ | .bne _ _ | .bgt _ _ | .j _ | .jr _ _ => none

/-- The relation a conditional branch tests (R172 to R174) and its offset; `none` for any other instruction. -/
def Instr.branchOf : Instr → Option (CmpRel × Nat × Int)
  | .beq ra imm => some (.eq, ra, imm)
  | .bne ra imm => some (.ne, ra, imm)
  | .bgt ra imm => some (.gt, ra, imm)
  | _ => none

/-- The instruction that the next step of a block in state `s` executes. -/
def State.current (s : State) : Option Instr := s.fetch.bind (decodeInstr s.arch)

/-- The next step stores to the data-memory cell `a` (R64, R162). -/
def State.storesTo (s : State) (a : Nat) : Prop :=
  ∃ ra rb, s.current = some (.sw ra rb) ∧ s.effectiveAddress rb = a ∧ s.arch.T ≤ a

/-- `n` steps lead from `s` to `u`, and none of them stores to the data-memory cell `a`. -/
def State.runsWithoutStore (a : Nat) : Nat → State → State → Prop
  | 0, s, u => u = s
  | n + 1, s, u => ¬ s.storesTo a ∧ ∃ t, step s = .next t ∧ State.runsWithoutStore a n t u

/-- When the step from `s` raises the fault `r` (R200), in the order of R208. -/
def State.faultCause (s : State) : FaultRecord → Prop
  | .addressFault pc => pc = s.pc ∧ (s.pc < 0 ∨ (s.is.length : Int) ≤ s.pc)
  | .unrecognizedInstruction p word op funct =>
      p = s.pc ∧ s.fetch = some word ∧ decodeInstr s.arch word = none ∧ s.arch.unrecognized = .fault ∧
      op = (decode s.arch word).op ∧ funct = (decode s.arch word).funct
  | .badRegister p field v =>
      p = s.pc ∧ s.arch.R ≤ v ∧ ∃ i, s.current = some i ∧
        match field with
        | .ra => Instr.usedRa i = some v
        | .rb => Instr.usedRb i = some v ∧ ∃ a, Instr.usedRa i = some a ∧ a < s.arch.R
  | .ioAddressError p ea access =>
      p = s.pc ∧ ∃ ra rb, ra < s.arch.R ∧ rb < s.arch.R ∧ ea = s.readReg rb ∧ ea < s.arch.T ∧
        match access with
        | .load => s.current = some (.lw ra rb) ∧ s.arch.B ≤ ea
        | .store => s.current = some (.sw ra rb) ∧ s.arch.M * s.arch.M ≤ ea
  | .randBound p imm =>
      p = s.pc ∧ s.arch.randMode = .bound ∧ imm < 0 ∧ ∃ ra, ra < s.arch.R ∧ s.current = some (.rand ra imm)

/-- The set R145 draws from. -/
def drawSet (D : Descriptor) (imm : Int) (v : Nat) : Prop :=
  match D.randMode with
  | .none => v < 2 ^ D.W
  | .mask => ∃ u, u < 2 ^ D.W ∧ v = u &&& trunc D.W imm
  | .bound => (v : Int) ≤ imm

end Sys2Proof.Machine
end

