-- ==== Sys2Proof/Certificates/Slice0/Obligations.lean ====
section
/-!
DEFINITION. The statements for the provers. Each says which rules or sections of spec/ it formalises; "Dn" is a decision of
92_eei_decisions.md, which the spec marks as its own choice, and "log n" an entry of the assumption log.
-/

open Sys2Proof Sys2Proof.Machine

/-! ### Encoding -/

/-- Words written out by hand in 30_encoding.md R104 to R106 and 95_test_vectors.md L2.1 decode to the instructions the spec
gives for them (the codes are D1 and D2). -/
def Obligations.ReferenceWordsDecode : Prop :=
  decodeInstr arch8 0x0121 = some (.sub 1 2) ∧ decodeInstr arch8 0x0234 = some (.sw 2 3) ∧
  decodeInstr arch8 0x03A5 = some (.cmp 3 10) ∧ decodeInstr arch8 0x14C8 = some (.li 4 (-56)) ∧
  decodeInstr arch8 0x31FD = some (.bne 1 (-3)) ∧ decodeInstr arch8 0x0006 = none ∧ decodeInstr arch8 0x6123 = none ∧
  decodeInstr arch16 0x2F3A = some (.mov 15 3) ∧ decodeInstr arch16 0x9280 = some (.rand 2 (-128)) ∧
  decodeInstr arch16 0xAFFF = some (.j 4095) ∧ decodeInstr arch16 0xB004 = some (.jal 4) ∧
  decodeInstr arch16 0xCE7F = some (.jr 14 7) ∧ decodeInstr arch16 0xD000 = none

/-- R98: the signed-immediate law and its range, for every width, and that load-immediate and every branch take their
immediate by it, neither scaled nor shifted. -/
def Obligations.SignedImmediateLaw : Prop :=
  (∀ k v : Nat, 1 ≤ k → v < 2 ^ k →
    (v < 2 ^ (k - 1) → sext k v = v) ∧ (2 ^ (k - 1) ≤ v → sext k v = (v : Int) - 2 ^ k) ∧
    -(2 ^ (k - 1) : Int) ≤ sext k v ∧ sext k v ≤ 2 ^ (k - 1) - 1) ∧
  (∀ D word, (decode D word).fmt = .I → (decode D word).imm = some (sext D.iImm.w (fieldOf word D.iImm))) ∧
  (∀ D word i ra imm, decodeInstr D word = some i →
    i = .li ra imm ∨ i = .beq ra imm ∨ i = .bne ra imm ∨ i = .bgt ra imm →
    imm = sext D.iImm.w (fieldOf word D.iImm))

/-- R94, R95, R97: a record has exactly the fields of its format, each extracted from the word at its position. -/
def Obligations.DecodedFieldsOfFormat : Prop :=
  ∀ D word, (decode D word).op = fieldOf word D.op ∧
    match (decode D word).fmt with
    | .R => (decode D word).ra = some (fieldOf word D.rRa) ∧ (decode D word).rb = some (fieldOf word D.rRb) ∧
        (decode D word).imm = none ∧ (decode D word).tgt = none ∧
        (∀ fc, D.funct = some fc → (decode D word).op = fc.rOpcode →
          (decode D word).funct = some (fieldOf word fc.field)) ∧
        ((∀ fc, D.funct = some fc → (decode D word).op ≠ fc.rOpcode) → (decode D word).funct = none)
    | .I => (decode D word).ra = some (fieldOf word D.iRa) ∧
        (decode D word).imm = some (sext D.iImm.w (fieldOf word D.iImm)) ∧
        (decode D word).rb = none ∧ (decode D word).funct = none ∧ (decode D word).tgt = none
    | .J => (decode D word).tgt = D.jTgt.map (fieldOf word) ∧
        (decode D word).ra = none ∧ (decode D word).rb = none ∧ (decode D word).funct = none ∧
        (decode D word).imm = none
    | .U => (decode D word).ra = none ∧ (decode D word).rb = none ∧ (decode D word).funct = none ∧
        (decode D word).imm = none ∧ (decode D word).tgt = none

/-- 30_encoding.md section 5, law (a) of the encoder: for every well-formed descriptor, an operation of `OPMAP` with every
field tuple in range has an `N`-bit word, and that word decodes to it. -/
def Obligations.DecodeOfEncode : Prop :=
  ∀ D i, D.wf = true → i.wf D = true → ∃ word, encode D i = some word ∧ word < 2 ^ D.N ∧ decodeInstr D word = some i

/-- 30_encoding.md section 5, law (b) of the encoder: a word whose operation is mapped, and whose bits outside every field of
its format are 0, is the encoding of what it decodes to. -/
def Obligations.EncodeOfDecode : Prop :=
  ∀ D word i, D.wf = true → decodeInstr D word = some i →
    (∀ b, word.testBit b = true → ∃ f ∈ D.fieldsFor (fieldOf word D.op), f.lo ≤ b ∧ b < f.lo + f.w) →
    encode D i = some word

/-- 30_encoding.md section 1 (D23): bits in no field of a word's format are don't-care. Two words that agree on every bit of
every field of the format of the first decode to the same record and the same instruction. -/
def Obligations.DontCareBitsIgnored : Prop :=
  ∀ D word other,
    (∀ f ∈ D.fieldsFor (fieldOf word D.op), ∀ b, f.lo ≤ b → b < f.lo + f.w → other.testBit b = word.testBit b) →
    decode D other = decode D word ∧ decodeInstr D other = decodeInstr D word

/-- 30_encoding.md sections 1 and 2: under a well-formed descriptor a word has an instruction exactly where dispatch gives it an
operation, and it is an instruction of that operation, well formed. -/
def Obligations.DispatchedWordHasInstruction : Prop :=
  ∀ D word o, D.wf = true →
    (dispatch D (decode D word) = some o ↔ ∃ i, decodeInstr D word = some i ∧ i.operation = o ∧ i.wf D = true)

/-- 30_encoding.md section 1, BadRegister (D10): in both reference descriptors every register field names a register. -/
def Obligations.ReferenceRegistersInRange : Prop :=
  ∀ D word i a, D = arch8 ∨ D = arch16 → decodeInstr D word = some i →
    Instr.usedRa i = some a ∨ Instr.usedRb i = some a → a < D.R

/-! ### The cycle -/

/-- 30_encoding.md section 5 (the instruction cycle): where the block may step and the word at `pc` decodes to an instruction,
the step is that instruction's execution at the same state; each meaning reads `pc` as the instruction's own address and
leaves `pc` at its final value, so the step adds nothing around it (log 14). -/
def Obligations.StepRunsDecodedInstruction : Prop :=
  ∀ s word i, s.mayStep → 0 ≤ s.pc → s.is[s.pc.toNat]? = some word → decodeInstr s.arch word = some i →
    step s = exec i s

/-- R40: the fetch reads the word at `pc`, and outside the instruction store, and only there, the step raises
AddressFault with the value of `pc`. -/
def Obligations.AddressFaultExactlyOutsideStore : Prop :=
  ∀ s : State,
    (∀ word, s.fetch = some word ↔ 0 ≤ s.pc ∧ s.is[s.pc.toNat]? = some word) ∧
    (s.fetch = none ↔ s.pc < 0 ∨ (s.is.length : Int) ≤ s.pc) ∧
    (s.mayStep → ((∃ t r, step s = .next t ∧ t.fault = some (.addressFault r)) ↔
      s.pc < 0 ∨ (s.is.length : Int) ≤ s.pc) ∧
      ∀ t r, step s = .next t → t.fault = some (.addressFault r) → r = s.pc)

/-- 30_encoding.md section 2, unrecognized combinations (D6): a no-op that only advances `pc`, or a fault with the fields of
60_exceptions.md's table. -/
def Obligations.UnrecognizedWordPolicy : Prop :=
  ∀ s word, s.mayStep → s.fetch = some word → decodeInstr s.arch word = none →
    (s.arch.unrecognized = .nop → step s = .next { s with pc := s.pc + 1 }) ∧
    (s.arch.unrecognized = .fault → step s = .next
        { s with fault := some (.unrecognizedInstruction s.pc word (decode s.arch word).op (decode s.arch word).funct) })

/-- 60_exceptions.md section 2 (D7): while a fault is recorded the block has no step (the outcome is the model's, log 4), and
the request returns the record; only the host's reset or a successful load clears it. -/
def Obligations.StoppedBlockHasNoStep : Prop :=
  ∀ (s : State) (r : FaultRecord), s.arch.wf = true → s.fault = some r →
    step s = .fault (.stopped r) ∧ s.hostStep = (.faulted r, s) ∧ s.hostReset.2.fault = none ∧
    (∀ cs, (s.hostSetButtons cs).2.fault = some r) ∧
    (∀ file reply t, s.hostLoad file = (reply, t) → t.fault = if reply = .ok then none else some r) ∧
    ∀ n target, State.hostStepN (n + 1) s = (.faulted r, s) ∧ State.hostRunUntil target (n + 1) s = (.faulted r, s)

/-- 00_scope.md section 4: "the model accepts only well-formed descriptors and refuses any other" (log 8). -/
def Obligations.IllFormedDescriptorRefused : Prop :=
  ∀ s : State, s.arch.wf = false → step s = .refused .illFormedDescriptor

/-- 60_exceptions.md sections 1 and 2 (D8, D9): the step raises a fault exactly for its cause, the first in the order of
priority, with the record of the table of causes. -/
def Obligations.FaultRaisedExactlyForCause : Prop :=
  ∀ s r, s.mayStep → ((∃ t, step s = .next t ∧ t.fault = some r) ↔ s.faultCause r)

/-- 60_exceptions.md section 2 (D7): faults are precise. A step that raises one commits nothing but the record. -/
def Obligations.FaultsArePrecise : Prop :=
  (∀ s t, step s = .next t → t.fault ≠ none → s.fault = none ∧ ∃ r, t = { s with fault := some r }) ∧
  (∀ i s t, exec i s = .next t → t.fault ≠ s.fault → ∃ r, t = { s with fault := some r })

/-- 30_encoding.md section 1 (D10) and 60_exceptions.md section 2 (log 7): a used register field that names no register stops
the operation with BadRegister before any other fault of its own, `ra` before `rb`. -/
def Obligations.BadRegisterTaken : Prop :=
  ∀ i s,
    (∀ a, Instr.usedRa i = some a → s.arch.R ≤ a →
      exec i s = .next { s with fault := some (.badRegister s.pc .ra a) }) ∧
    (∀ a b, Instr.usedRa i = some a → a < s.arch.R → Instr.usedRb i = some b → s.arch.R ≤ b →
      exec i s = .next { s with fault := some (.badRegister s.pc .rb b) })

/-- 30_encoding.md sections 1, 2 and 5: decoding never fails and every word is either an operation or unrecognized, so a
block that may step, in any state that meets the invariants, always answers a next state, which meets them too (10_state.md
section 5). That a step which raises a fault (60_exceptions.md section 2) is a next state is the model's reading, log 4. -/
def Obligations.BlockAlwaysStepsWhenItMay : Prop :=
  ∀ s : State, s.Inv → s.fault = none → ∃ t, step s = .next t ∧ t.Inv

/-! ### Whole-machine rules -/

/-- 10_state.md section 5: the invariants hold after every step from a state in which they hold, and `pc` becomes negative only
as the target of a taken branch; at creation and after the host's reset `pc` is not negative. Beside the invariants of that
section, `State.Inv` holds the memory list's canonical form (log 6), the constant in a reserved index's slot (log 13), the
cells below `T` at 0 (D16) and the range of the store's words (D4). -/
def Obligations.StepKeepsInvariants : Prop :=
  (∀ s t : State, s.Inv → step s = .next t → t.Inv ∧
    (0 ≤ s.pc → t.pc < 0 → ∃ i rel ra imm, s.current = some i ∧ Instr.branchOf i = some (rel, ra, imm) ∧
      s.compare rel ra = true ∧ t.pc = s.pc + 1 + imm)) ∧
  (∀ s : State, 0 ≤ s.hostReset.2.pc) ∧ ∀ D, 0 ≤ (State.create D).pc

/-- The state after reset meets the invariants. -/
def Obligations.ResetMeetsInvariants : Prop := State.reset.Inv

/-- 70_reset_and_hazards.md section 1 and 10_state.md section 6: the block at creation meets the invariants under every
well-formed descriptor, not only the one `State.reset` takes (log 2). -/
def Obligations.CreationMeetsInvariants : Prop := ∀ D : Descriptor, D.wf = true → (State.create D).Inv

/-- 70_reset_and_hazards.md section 2: every host operation keeps the invariants. -/
def Obligations.HostOperationsKeepInvariants : Prop :=
  ∀ s : State, s.Inv → s.hostReset.2.Inv ∧ (∀ file, (s.hostLoad file).2.Inv) ∧ (∀ cs, (s.hostSetButtons cs).2.Inv) ∧
    ∀ n target, (State.hostStepN n s).2.Inv ∧ (State.hostRunUntil target n s).2.Inv

/-- R48: one step changes at most one register, the one its instruction names as its destination; at most one data-memory or
display cell, the one a store's address names; and `pc`. It never changes the descriptor, the latches or the instruction
store. -/
def Obligations.OneWritePerStep : Prop :=
  ∀ s t : State, s.Inv → step s = .next t →
    (∀ j, s.current.bind (Instr.destination s.arch) ≠ some j → t.readReg j = s.readReg j) ∧
    (∀ ra rb, s.current = some (.sw ra rb) →
      (s.effectiveAddress rb < s.arch.M * s.arch.M → SameMemory s t ∧
        ∀ row col, ¬ (row = s.effectiveAddress rb / s.arch.M ∧ col = s.effectiveAddress rb % s.arch.M) →
          t.displayCell row col = s.displayCell row col) ∧
      (s.arch.M * s.arch.M ≤ s.effectiveAddress rb → SameDisplay s t ∧
        ∀ a, a ≠ s.effectiveAddress rb → Memory.read t.mem a = Memory.read s.mem a)) ∧
    ((∀ ra rb, s.current ≠ some (.sw ra rb)) → SameMemory s t ∧ SameDisplay s t) ∧
    t.arch = s.arch ∧ t.buttons = s.buttons ∧ t.is = s.is

/-- 10_state.md section 2: where a fault-free step leaves `pc`, for every instruction (the conditions of the branches on the
unsigned stored values, D13 and risk I6) and for an unrecognized word under `nop` (D6); of the host's operations, set_buttons
and a failed load leave it and reset and load set it to 0. A step that raises a fault leaves it (D7, risk I16). -/
def Obligations.ProgramCounterMoves : Prop :=
  (∀ s t : State, step s = .next t → t.fault = none →
    t.pc = match s.current with
      | some (.beq ra imm) => if s.readReg ra = s.readReg s.arch.C then s.pc + 1 + imm else s.pc + 1
      | some (.bne ra imm) => if s.readReg ra ≠ s.readReg s.arch.C then s.pc + 1 + imm else s.pc + 1
      | some (.bgt ra imm) => if s.readReg ra > s.readReg s.arch.C then s.pc + 1 + imm else s.pc + 1
      | some (.j tgt) => tgt
      | some (.jal tgt) => tgt
      | some (.jr ra _) => s.readReg ra
      | _ => s.pc + 1) ∧
  (∀ s : State, (∀ cs, (s.hostSetButtons cs).2.pc = s.pc) ∧ s.hostReset.2.pc = 0 ∧
    ∀ file reply t, s.hostLoad file = (reply, t) → t.pc = if reply = .ok then 0 else s.pc) ∧
  ∀ s t : State, step s = .next t → t.fault ≠ none → t.pc = s.pc

/-- 10_state.md sections 3 and 4, 00_scope.md section 4: no instruction writes the instruction store, the button latches or
the descriptor, and no run operation does. -/
def Obligations.RunsKeepStoreAndLatches : Prop :=
  (∀ s t : State, step s = .next t → t.is = s.is ∧ t.buttons = s.buttons ∧ t.arch = s.arch) ∧
  ∀ (n : Nat) (target : Int) (s t : State) (reply : Reply),
    State.hostStepN n s = (reply, t) ∨ State.hostRunUntil target n s = (reply, t) →
    t.is = s.is ∧ t.buttons = s.buttons ∧ t.arch = s.arch

/-- 10_state.md section 4: no instruction reads the display grid. From two states that differ in it alone, a step answers the
same but for it. -/
def Obligations.DisplayNeverRead : Prop :=
  ∀ (s t : State) (grid : List (List Nat)), step s = .next t →
    ∃ grid', step { s with display := grid } = .next { t with display := grid' }

/-- 10_state.md section 1 (D21): a reserved register reads its constant before and after every step and every host
operation. -/
def Obligations.ReservedRegistersConstant : Prop :=
  ∀ (s : State) (i c : Nat), s.arch.reserved.lookup i = some c →
    s.readReg i = c ∧ (∀ t, step s = .next t → t.readReg i = c) ∧
    s.hostReset.2.readReg i = c ∧ (∀ cs, (s.hostSetButtons cs).2.readReg i = c) ∧
    (∀ file, (s.hostLoad file).2.readReg i = c) ∧
    ∀ n target, (State.hostStepN n s).2.readReg i = c ∧ (State.hostRunUntil target n s).2.readReg i = c

/-- 10_state.md section 1 and 90_conflicts.md C1 (D11): under `C_EXPLICIT_WRITE = drop`, cmp is the only instruction that
changes the comparison register, and what it leaves there is 0 or 1. That this holds of jal too, where `LINK = C`, is the
model's reading, log 12. -/
def Obligations.OnlyCmpWritesCUnderDrop : Prop :=
  ∀ (s t : State) (i : Instr), s.Inv → s.arch.cExplicitWrite = .drop → exec i s = .next t →
    (i.operation ≠ .cmp → t.readReg t.arch.C = s.readReg s.arch.C) ∧
    (∀ ra rb, i = .cmp ra rb → ra < s.arch.R → t.readReg t.arch.C ≤ 1)

/-! ### Results and frames -/

/-- 40_arithmetic.md, ADD (D14): the sum, modulo `2^W`, in `ra`, and nothing else but `pc`. -/
def Obligations.AddResult : Prop :=
  ∀ (s : State) (ra rb : Nat), s.x.length = s.arch.R → ra < s.arch.R → rb < s.arch.R →
    ∃ t, exec (.add ra rb) s = .next t ∧ RegWritten s t ra (s.readReg ra + s.readReg rb) ∧
      t.pc = s.pc + 1 ∧ SameMemory s t ∧ SameDisplay s t ∧ SameHostSide s t ∧ t.draws = s.draws

/-- 40_arithmetic.md, SUB (D14): the difference, modulo `2^W`, in `ra`, and nothing else but `pc`. -/
def Obligations.SubResult : Prop :=
  ∀ (s : State) (ra rb : Nat), s.x.length = s.arch.R → ra < s.arch.R → rb < s.arch.R →
    ∃ t, exec (.sub ra rb) s = .next t ∧ RegWritten s t ra ((s.readReg ra : Int) - s.readReg rb) ∧
      t.pc = s.pc + 1 ∧ SameMemory s t ∧ SameDisplay s t ∧ SameHostSide s t ∧ t.draws = s.draws

/-- 40_arithmetic.md, Arithmetic laws of the family: a sum or difference read signed or unsigned leaves the same pattern, the
pattern of `W`-bit addition or subtraction. -/
def Obligations.ArithmeticNeedsNoSignedness : Prop :=
  ∀ (W a b : Nat), 1 ≤ W → a < 2 ^ W → b < 2 ^ W →
    trunc W (sext W a + sext W b) = trunc W ((a : Int) + b) ∧
    trunc W (sext W a - sext W b) = trunc W ((a : Int) - b) ∧
    trunc W ((a : Int) + b) = (BitVec.ofNat W a + BitVec.ofNat W b).toNat ∧
    trunc W ((a : Int) - b) = (BitVec.ofNat W a - BitVec.ofNat W b).toNat

/-- 40_arithmetic.md, LI: the immediate, truncated, in `ra`, and nothing else but `pc`. -/
def Obligations.LiResult : Prop :=
  ∀ (s : State) (ra : Nat) (imm : Int), s.x.length = s.arch.R → ra < s.arch.R →
    ∃ t, exec (.li ra imm) s = .next t ∧ RegWritten s t ra imm ∧
      t.pc = s.pc + 1 ∧ SameMemory s t ∧ SameDisplay s t ∧ SameHostSide s t ∧ t.draws = s.draws

/-- 40_arithmetic.md, MOV (D14): the value of `rb` in `ra`, unchanged by truncation, and nothing else but `pc`. -/
def Obligations.MovResult : Prop :=
  ∀ (s : State) (ra rb : Nat), s.Inv → ra < s.arch.R → rb < s.arch.R →
    ∃ t, exec (.mov ra rb) s = .next t ∧
      (∀ j, t.readReg j = if j = ra ∧ dropsWrite s.arch ra = false then s.readReg rb else s.readReg j) ∧
      t.pc = s.pc + 1 ∧ SameMemory s t ∧ SameDisplay s t ∧ SameHostSide s t ∧ t.draws = s.draws

/-- 40_arithmetic.md, RAND (D15; the draw is the free value of log 5): some value of the mode's set in `ra`, and nothing else
but `pc` and the model's count of draws. -/
def Obligations.RandResult : Prop :=
  ∀ (s : State) (ra : Nat) (imm : Int), s.x.length = s.arch.R → ra < s.arch.R →
    (s.arch.randMode = .bound → 0 ≤ imm) →
    ∃ t v, exec (.rand ra imm) s = .next t ∧ drawSet s.arch imm v ∧ RegWritten s t ra v ∧
      t.pc = s.pc + 1 ∧ SameMemory s t ∧ SameDisplay s t ∧ SameHostSide s t ∧ t.draws = s.draws + 1

/-- 40_arithmetic.md, RAND and 93_implementation_defined.md I4: the draw admits every value of the mode's set and no other,
and `bound` with a negative immediate raises RandBound and draws nothing. -/
def Obligations.RandAdmitsExactlyItsSet : Prop :=
  ∀ (s : State) (ra : Nat) (imm : Int), ra < s.arch.R →
    ((s.arch.randMode = .bound → 0 ≤ imm) →
      ∀ v, drawSet s.arch imm v ↔
        ∃ u, randWith u ra imm s =
          .next { s with x := (s.writeReg ra v).x, pc := s.pc + 1, draws := s.draws + 1 } ∧
          drawnValue s.arch imm u = some v) ∧
    (s.arch.randMode = .bound → imm < 0 →
      exec (.rand ra imm) s = .next { s with fault := some (.randBound s.pc imm) })

/-- R63: the read primitive of the data space. -/
def Obligations.MemReadDecodesAddress : Prop :=
  ∀ (s : State) (a : Nat), s.Inv →
    (∀ b, s.buttons[a]? = some b → a < s.arch.B ∧ s.memRead a = some (if b then 1 else 0)) ∧
    (s.arch.B ≤ a → a < s.arch.T → s.memRead a = none) ∧
    (s.arch.T ≤ a → s.memRead a = some (Memory.read s.mem a))

/-- 41_memory_access.md, LW (D14): a button latch or a data-memory cell in `ra`, by the address in `rb`, and nothing else but
`pc`: a load has no side effect. -/
def Obligations.LwResult : Prop :=
  ∀ (s : State) (ra rb : Nat), s.Inv → ra < s.arch.R → rb < s.arch.R →
    s.readReg rb < s.arch.B ∨ s.arch.T ≤ s.readReg rb →
    ∃ t, exec (.lw ra rb) s = .next t ∧
      (∀ j, t.readReg j = if j = ra ∧ dropsWrite s.arch ra = false then
          (if s.readReg rb < s.arch.B then s.button (s.readReg rb) else Memory.read s.mem (s.readReg rb))
        else s.readReg j) ∧
      t.pc = s.pc + 1 ∧ SameMemory s t ∧ SameDisplay s t ∧ SameHostSide s t ∧ t.draws = s.draws

/-- 41_memory_access.md, SW (D14): the value of `ra` in the display cell or the data-memory cell its address names, every
other cell as before, no register changed. -/
def Obligations.SwResult : Prop :=
  ∀ (s : State) (ra rb : Nat), s.Inv → ra < s.arch.R → rb < s.arch.R →
    s.readReg rb < s.arch.M * s.arch.M ∨ s.arch.T ≤ s.readReg rb →
    ∃ t, exec (.sw ra rb) s = .next t ∧
      (∀ a, Memory.read t.mem a =
        if s.arch.T ≤ s.readReg rb ∧ a = s.readReg rb then s.readReg ra else Memory.read s.mem a) ∧
      (∀ row col, t.displayCell row col =
        if s.readReg rb < s.arch.M * s.arch.M ∧ row = s.readReg rb / s.arch.M ∧ col = s.readReg rb % s.arch.M
        then s.readReg ra else s.displayCell row col) ∧
      t.pc = s.pc + 1 ∧ SameRegs s t ∧ SameHostSide s t ∧ t.draws = s.draws

/-- 20_memory.md section 1 and 41_memory_access.md (D17): an access in the I/O window's gap raises IOAddressError, for a load
also where its register write would be dropped. -/
def Obligations.IoGapAccessFaults : Prop :=
  ∀ (s : State) (ra rb : Nat), ra < s.arch.R → rb < s.arch.R → s.readReg rb < s.arch.T →
    (s.arch.B ≤ s.readReg rb →
      exec (.lw ra rb) s = .next { s with fault := some (.ioAddressError s.pc (s.readReg rb) .load) }) ∧
    (s.arch.M * s.arch.M ≤ s.readReg rb →
      exec (.sw ra rb) s = .next { s with fault := some (.ioAddressError s.pc (s.readReg rb) .store) })

/-- 20_memory.md section 4: a load of a data-memory cell returns the value of the last store to it before it, by whichever
register either takes the address, with any run between them that does not store there; and the reset value 0 where no store
to it came since reset. -/
def Obligations.LoadReturnsLastStore : Prop :=
  (∀ (s : State) (ra rb : Nat), s.Inv → ra < s.arch.R → rb < s.arch.R → s.arch.T ≤ s.readReg rb →
    ∃ t, exec (.sw ra rb) s = .next t ∧ SameRegs s t ∧
      ∀ (n : Nat) (u : State) (rd rx : Nat), State.runsWithoutStore (s.readReg rb) n t u →
        rd < s.arch.R → rx < s.arch.R → u.readReg rx = s.readReg rb → dropsWrite s.arch rd = false →
        ∃ v, exec (.lw rd rx) u = .next v ∧ v.readReg rd = s.readReg ra) ∧
  ∀ (s : State) (n : Nat) (u : State) (rd rx : Nat), s.Inv → State.runsWithoutStore (u.readReg rx) n s.hostReset.2 u →
    rd < s.arch.R → rx < s.arch.R → s.arch.T ≤ u.readReg rx → dropsWrite s.arch rd = false →
    ∃ v, exec (.lw rd rx) u = .next v ∧ v.readReg rd = 0

/-- 42_compare_branch.md, CMP (D11, D12, D13): 1 or 0 in the comparison register by the descriptor's relation on the unsigned
stored values, the write never dropped, and nothing else but `pc`. -/
def Obligations.CmpResult : Prop :=
  ∀ (s : State) (ra rb : Nat) (rel : CmpRel), s.Inv → ra < s.arch.R → s.arch.cmpRel = some rel →
    ∃ t, exec (.cmp ra rb) s = .next t ∧
      (∀ j, t.readReg j = if j = s.arch.C then
          (match rel with
            | .eq => if s.readReg ra = s.readReg s.arch.C then 1 else 0
            | .ne => if s.readReg ra ≠ s.readReg s.arch.C then 1 else 0
            | .gt => if s.readReg ra > s.readReg s.arch.C then 1 else 0)
        else s.readReg j) ∧
      t.pc = s.pc + 1 ∧ SameMemory s t ∧ SameDisplay s t ∧ SameHostSide s t ∧ t.draws = s.draws

/-- 42_compare_branch.md, Branch target, BEQ, BNE, BGT (D5, D13): the next state is the same but for `pc`, which is
`p + 1 + imm` where the condition on the unsigned stored values holds and `p + 1` where not. The unsigned reading of bgt is
the spec's choice (I6). -/
def Obligations.BranchResult : Prop :=
  ∀ (s : State) (ra : Nat) (imm : Int), ra < s.arch.R →
    exec (.beq ra imm) s = .next
      { s with pc := s.pc + 1 + (if s.readReg ra = s.readReg s.arch.C then imm else 0) } ∧
    exec (.bne ra imm) s = .next
      { s with pc := s.pc + 1 + (if s.readReg ra ≠ s.readReg s.arch.C then imm else 0) } ∧
    exec (.bgt ra imm) s = .next
      { s with pc := s.pc + 1 + (if s.readReg ra > s.readReg s.arch.C then imm else 0) }

/-- 93_implementation_defined.md I6: the unsigned reading of a greater-than (D13) and the signed one differ exactly where the
top bits of the two operands differ, so a claim about bgt holds of both readings where they agree. -/
def Obligations.SignedReadingDiffersOnTopBits : Prop :=
  ∀ (W a b : Nat), 1 ≤ W → a < 2 ^ W → b < 2 ^ W →
    ((relHolds .gt a b = decide (sext W b < sext W a)) ↔ (a < 2 ^ (W - 1) ↔ b < 2 ^ (W - 1)))

/-- 43_jumps.md, J and JR (D14, D20): the next state is the same but for `pc`, which is the target. -/
def Obligations.JumpResult : Prop :=
  ∀ (s : State) (ra rb tgt : Nat),
    exec (.j tgt) s = .next { s with pc := tgt } ∧
    (ra < s.arch.R → exec (.jr ra rb) s = .next { s with pc := s.readReg ra })

/-- 43_jumps.md, JAL (D20; log 12 for `LINK = C` under drop): the return address, truncated, in `LINK`, the target in `pc`,
and nothing else. -/
def Obligations.JalResult : Prop :=
  ∀ (s : State) (tgt l : Nat), s.Inv → s.arch.link = some l →
    ∃ t, exec (.jal tgt) s = .next t ∧ RegWritten s t l (s.pc + 1) ∧
      (l ≠ s.arch.C ∨ s.arch.cExplicitWrite = .write → t.readReg l = trunc s.arch.W (s.pc + 1)) ∧
      t.pc = tgt ∧ SameMemory s t ∧ SameDisplay s t ∧ SameHostSide s t ∧ t.draws = s.draws

/-- 43_jumps.md, JR: jr of the link register after jal returns to the instruction after the jal; where `LINK = C`, under
`C_EXPLICIT_WRITE = write` (under `drop` the model writes no link there, log 12). -/
def Obligations.CallThenReturn : Prop :=
  ∀ (s : State) (tgt l rb : Nat), s.Inv → s.arch.link = some l → l ≠ s.arch.C ∨ s.arch.cExplicitWrite = .write →
    0 ≤ s.pc → s.pc + 1 < 2 ^ s.arch.W →
    ∃ t u, exec (.jal tgt) s = .next t ∧ exec (.jr l rb) t = .next u ∧ u.pc = s.pc + 1

/-- 30_encoding.md section 4, the idioms: `beq rC, -1` and `j p` at `p` change nothing at all, and `mov ra, ra` changes nothing
but `pc`. -/
def Obligations.IdiomsChangeNothing : Prop :=
  ∀ s : State, s.Inv →
    exec (.beq s.arch.C (-1)) s = .next s ∧
    (∀ tgt : Nat, s.pc = tgt → exec (.j tgt) s = .next s) ∧
    (∀ ra, ra < s.arch.R → exec (.mov ra ra) s = .next { s with pc := s.pc + 1 })

/-! ### Reset and the host -/

/-- 70_reset_and_hazards.md section 1 and 10_state.md section 6 (D7 for `fault`): what the host's reset leaves, from any
state. -/
def Obligations.ResetLeavesStatedValues : Prop :=
  ∀ s t : State, ∀ reply, s.hostReset = (reply, t) → reply = .ok ∧ t.pc = 0 ∧ t.x.length = s.arch.R ∧
    (∀ i, t.readReg i = (s.arch.reserved.lookup i).getD 0) ∧
    (∀ a, Memory.read t.mem a = 0) ∧
    t.buttons.length = s.arch.B ∧ (∀ a, t.button a = 0) ∧
    t.display.length = s.arch.M ∧ (∀ row col, t.displayCell row col = 0) ∧
    t.is = s.is ∧ t.fault = none ∧ t.arch = s.arch

/-- 70_reset_and_hazards.md section 2, load (D4; the parsing is out of scope): all or nothing, and on success the words in
order and a full reset. -/
def Obligations.LoadIsAllOrNothing : Prop :=
  ∀ (s : State) (ts : List (Option Nat)),
    (∀ ws : List Nat, ts = ws.map some → (∀ w ∈ ws, w < 2 ^ s.arch.N) →
      s.hostLoad (.tokens ts) = (.ok, { s.hostReset.2 with is := ws })) ∧
    ((∃ token ∈ ts, ∀ w, token = some w → 2 ^ s.arch.N ≤ w) → s.hostLoad (.tokens ts) = (.loadError, s)) ∧
    s.hostLoad .missing = (.loadError, s)

/-- R236: set_buttons sets each latch from its character, counting from the left, or is refused and changes nothing. -/
def Obligations.SetButtonsSetsLatches : Prop :=
  ∀ (s : State) (cs : List Char),
    (cs.length = s.arch.B → (∀ c ∈ cs, c = '0' ∨ c = '1') →
      ∃ t, s.hostSetButtons cs = (.ok, t) ∧ t = { s with buttons := t.buttons } ∧ t.buttons.length = s.arch.B ∧
        ∀ j c, cs[j]? = some c → t.button j = if c = '1' then 1 else 0) ∧
    (cs.length ≠ s.arch.B ∨ (∃ c ∈ cs, c ≠ '0' ∧ c ≠ '1') → s.hostSetButtons cs = (.validationError, s))

/-- 70_reset_and_hazards.md section 2, step (D7, log 4): the host's step request is one step of the block. It answers the new
state, or the record with the state the fault leaves; where there is no step it answers why and changes nothing. -/
def Obligations.StepRequestAnswersStep : Prop :=
  ∀ s : State,
    (∀ t, step s = .next t → t.fault = none → s.hostStep = (.ok, t)) ∧
    (∀ t r, step s = .next t → t.fault = some r → s.hostStep = (.faulted r, t)) ∧
    (∀ r, step s = .fault (.stopped r) → s.hostStep = (.faulted r, s)) ∧
    (∀ r, step s = .refused r → s.hostStep = (.refused r, s)) ∧
    (∀ t, s.hostStep = (.ok, t) → step s = .next t ∧ t.fault = none)

/-- 70_reset_and_hazards.md section 2, step_n: it executes its cycles one after another, so a run of `m + n` cycles is a run of
`m` and, unless a fault aborts it, a run of `n`; and a count of 0 does nothing. That a count of 0 replies ok in a stopped
block too is the model's choice, log 19. -/
def Obligations.StepNIsSequential : Prop :=
  ∀ (s : State), State.hostStepN 0 s = (.ok, s) ∧ State.hostStepN 1 s = s.hostStep ∧
    ∀ m n, State.hostStepN (m + n) s =
      if (State.hostStepN m s).1 = .ok then State.hostStepN n (State.hostStepN m s).2 else State.hostStepN m s

/-- 70_reset_and_hazards.md section 2, run_until (D26): it returns after the first number of steps, at least one, that leaves
`pc` at the target, in the state step_n of that number leaves. -/
def Obligations.RunUntilStopsAtFirstHit : Prop :=
  ∀ (s t : State) (target : Int) (fuel : Nat), State.hostRunUntil target fuel s = (.ok, t) ↔
    ∃ n, 0 < n ∧ n ≤ fuel ∧ State.hostStepN n s = (.ok, t) ∧ t.pc = target ∧
      ∀ m, 0 < m → m < n → (State.hostStepN m s).2.pc ≠ target

/-- 70_reset_and_hazards.md sections 1, 2 and 4 (log 11): the Run Controller is Idle at creation and after reset or a successful
load, from either phase; a run operation starts only when it is Idle and makes it Running; and a set_buttons leaves the
phase. -/
def Obligations.RunControllerPhases : Prop :=
  (∀ D, (RunController.create D).phase = .idle ∧ (RunController.create D).block = State.create D) ∧
  ∀ c : RunController,
    (c.reset.1 = .ok ∧ c.reset.2.phase = .idle ∧ c.reset.2.block = c.block.hostReset.2) ∧
    (∀ file reply d, c.load file = (reply, d) → c.block.hostLoad file = (reply, d.block) ∧
      d.phase = if reply = .ok then .idle else c.phase) ∧
    (∀ cs reply d, c.setButtons cs = (reply, d) → c.block.hostSetButtons cs = (reply, d.block) ∧ d.phase = c.phase) ∧
    (∀ op, (c.phase = .running → c.start op = none) ∧
      (c.phase = .idle → ∃ d, c.start op = some d ∧ d.phase = .running ∧ d.block = c.block)) ∧
    (c.phase = .idle → c.cycle = (none, c))

/-- 70_reset_and_hazards.md sections 2 and 4 (log 11): cycle by cycle, the Run Controller leaves what step_n and run_until
leave; it is Running as long as the operation has not returned and Idle when it has. For the reply of a count of 0 see
log 19. -/
def Obligations.RunControllerRunsOperations : Prop :=
  (∀ (n : Nat) (s : State), RunController.drive (n + 1) { block := s, running := some (.stepN n) } =
    (some (State.hostStepN n s).1, { block := (State.hostStepN n s).2, running := none })) ∧
  (∀ (n : Nat) (s : State) (target : Int) (reply : Reply) (t : State), State.hostRunUntil target n s = (reply, t) →
    RunController.drive n { block := s, running := some (.runUntil target) } =
      if reply = .notFinished then (none, { block := t, running := some (.runUntil target) })
      else (some reply, { block := t, running := none })) ∧
  ∀ (n : Nat) (c d : RunController) (reply : Option Reply), c.phase = .running → RunController.drive n c = (reply, d) →
    (reply = none ↔ d.phase = .running)
end

