-- ==== Sys2Proof/Laws/Decode.lean ====
section
/-!
SUPPORT. Fields of a word, the signed immediate, and what the decoder gives.
-/

namespace Sys2Proof

/-- R12 and R91 read a field alike: by division and remainder, or by shift and mask. -/
theorem fieldOf_eq_shift_mask (word : Word) (f : Field) : fieldOf word f = (word >>> f.lo) &&& (2 ^ f.w - 1) := by
  rw [Nat.and_two_pow_sub_one_eq_mod, Nat.shiftRight_eq_div_pow]; rfl

theorem fieldOf_lt (word : Word) (f : Field) : fieldOf word f < 2 ^ f.w := Nat.mod_lt _ (by positivity)

/-- Bit `i` of a field is bit `lo + i` of the word. -/
theorem testBit_fieldOf (word : Word) (f : Field) (i : Nat) :
    (fieldOf word f).testBit i = (decide (i < f.w) && word.testBit (f.lo + i)) := by
  rw [fieldOf, Nat.testBit_mod_two_pow, Nat.testBit_div_two_pow, Nat.add_comm i f.lo]

/-- Bit `b` of a placed field value is bit `b − lo` of the value. -/
theorem testBit_place (f : Field) (v b : Nat) : (place f v).testBit b = (decide (f.lo ≤ b) && v.testBit (b - f.lo)) := by
  rw [place, Nat.testBit_shiftLeft]

theorem sext_range {k v : Nat} (hk : 1 ≤ k) (hv : v < 2 ^ k) : -(2 ^ (k - 1) : Int) ≤ sext k v ∧ sext k v ≤ 2 ^ (k - 1) - 1 := by
  obtain ⟨k, rfl⟩ : ∃ n, k = n + 1 := ⟨k - 1, by omega⟩
  simp only [sext, Nat.add_sub_cancel]
  have h2 : (2 : Int) ^ (k + 1) = 2 * 2 ^ k := by ring
  have hv' : (v : Int) < 2 ^ (k + 1) := by exact_mod_cast hv
  split
  · next h =>
    have : (v : Int) < 2 ^ k := by exact_mod_cast h
    omega
  · next h =>
    have : (2 : Int) ^ k ≤ v := by exact_mod_cast Nat.le_of_not_lt h
    omega

/-- Storing a signed immediate and reading it back (R111). -/
theorem sext_trunc {k : Nat} (hk : 1 ≤ k) {v : Int} (h1 : -(2 ^ (k - 1) : Int) ≤ v) (h2 : v ≤ 2 ^ (k - 1) - 1) :
    sext k (trunc k v) = v := by
  obtain ⟨k, rfl⟩ : ∃ n, k = n + 1 := ⟨k - 1, by omega⟩
  simp only [Nat.add_sub_cancel] at *
  have h3 : (2 : Int) ^ (k + 1) = 2 * 2 ^ k := by ring
  have hpos : (0 : Int) < 2 ^ k := by positivity
  simp only [sext, trunc, Nat.add_sub_cancel]
  rcases lt_or_ge v 0 with hv | hv
  · have e : v % 2 ^ (k + 1) = v + 2 ^ (k + 1) := by
      rw [← Int.add_emod_right]; exact Int.emod_eq_of_lt (by omega) (by omega)
    rw [e, Int.toNat_of_nonneg (by omega), if_neg]
    · ring
    · zify; omega
  · have e : v % 2 ^ (k + 1) = v := Int.emod_eq_of_lt hv (by omega)
    rw [e, if_pos]
    · simp [hv]
    · zify; omega

/-- Reading a signed immediate and storing it back (R111). -/
theorem trunc_sext {k v : Nat} (hv : v < 2 ^ k) : trunc k (sext k v) = v := by
  have hv' : (v : Int) < 2 ^ k := by exact_mod_cast hv
  unfold trunc sext
  split
  · rw [Int.emod_eq_of_lt (by omega) hv']; simp
  · rw [← Int.add_emod_right, Int.emod_eq_of_lt] <;> omega

/-! ### The decoder -/

/-- The operation of the instruction that a record gives. -/
theorem toInstr_operation {o : Operation} {d : Decoded} {i : Instr} (h : toInstr o d = some i) : i.operation = o := by
  cases o <;> simp only [toInstr, Decoded.regs, Decoded.regImm, Option.map_eq_some_iff] at h <;>
    first
    | (split at h <;> cases h; rfl)
    | (obtain ⟨_, _, rfl⟩ := h; rfl)

/-- Where a word has an instruction, dispatch gave its operation and the record its operands. -/
theorem decodeInstr_some {D : Descriptor} {word : Word} {i : Instr} (h : decodeInstr D word = some i) :
    dispatch D (decode D word) = some i.operation ∧ toInstr i.operation (decode D word) = some i := by
  obtain ⟨o, ho, hi⟩ := Option.bind_eq_some_iff.1 h
  have := toInstr_operation hi
  subst this
  exact ⟨ho, hi⟩

/-- The record of each format (R94 to R97). -/
theorem decode_R {D : Descriptor} {word : Word} (h : D.formatOf (fieldOf word D.op) = .R) :
    decode D word =
      { fmt := .R, op := fieldOf word D.op
        funct := (D.functFor (fieldOf word D.op)).map fun fc => fieldOf word fc.field
        ra := some (fieldOf word D.rRa), rb := some (fieldOf word D.rRb), imm := none, tgt := none } := by
  simp [decode, h]

theorem decode_I {D : Descriptor} {word : Word} (h : D.formatOf (fieldOf word D.op) = .I) :
    decode D word =
      { fmt := .I, op := fieldOf word D.op, funct := none, ra := some (fieldOf word D.iRa), rb := none
        imm := some (sext D.iImm.w (fieldOf word D.iImm)), tgt := none } := by
  simp [decode, h]

theorem decode_J {D : Descriptor} {word : Word} (h : D.formatOf (fieldOf word D.op) = .J) :
    decode D word =
      { fmt := .J, op := fieldOf word D.op, funct := none, ra := none, rb := none, imm := none
        tgt := D.jTgt.map (fieldOf word) } := by
  simp [decode, h]

theorem decode_U {D : Descriptor} {word : Word} (h : D.formatOf (fieldOf word D.op) = .U) :
    decode D word =
      { fmt := .U, op := fieldOf word D.op, funct := none, ra := none, rb := none, imm := none, tgt := none } := by
  simp [decode, h]

/-- Two register operands come from the R-format's fields. -/
theorem regs_fit {D : Descriptor} {word : Word} {mk : Nat → Nat → Instr} {i : Instr}
    (h : (decode D word).regs mk = some i) :
    i = mk (fieldOf word D.rRa) (fieldOf word D.rRb) := by
  cases hf : D.formatOf (fieldOf word D.op) with
  | R => rw [decode_R hf] at h; exact (Option.some.inj h).symm
  | I => rw [decode_I hf] at h; cases h
  | J => rw [decode_J hf] at h; cases h
  | U => rw [decode_U hf] at h; cases h

/-- A register and an immediate come from the I-format's fields. -/
theorem regImm_fit {D : Descriptor} {word : Word} {mk : Nat → Int → Instr} {i : Instr}
    (h : (decode D word).regImm mk = some i) :
    i = mk (fieldOf word D.iRa) (sext D.iImm.w (fieldOf word D.iImm)) := by
  cases hf : D.formatOf (fieldOf word D.op) with
  | R => rw [decode_R hf] at h; cases h
  | I => rw [decode_I hf] at h; exact (Option.some.inj h).symm
  | J => rw [decode_J hf] at h; cases h
  | U => rw [decode_U hf] at h; cases h

/-- A target comes from the J-format's field. -/
theorem tgt_fit {D : Descriptor} {word : Word} {mk : Nat → Instr} {i : Instr}
    (h : (decode D word).tgt.map mk = some i) : ∃ f, D.jTgt = some f ∧ i = mk (fieldOf word f) := by
  cases hf : D.formatOf (fieldOf word D.op) with
  | R => rw [decode_R hf] at h; cases h
  | I => rw [decode_I hf] at h; cases h
  | J =>
    rw [decode_J hf, Option.map_map, Option.map_eq_some_iff] at h
    obtain ⟨f, hj, rfl⟩ := h
    exact ⟨f, hj, rfl⟩
  | U => rw [decode_U hf] at h; cases h

end Sys2Proof
end

