-- ==== Sys2Proof/Laws/Memory.lean ====
section
/-!
SUPPORT. The data memory: a read after a write, and that every memory operation keeps the canonical form.
-/

namespace Sys2Proof.Machine

theorem Memory.read_eq_zero_of_lt {m : List Cell} {a : Nat} (h : ∀ c ∈ m, a < c.1) : Memory.read m a = 0 := by
  induction m with
  | nil => rfl
  | cons c cs ih =>
    have hc := h c (by simp)
    simp only [Memory.read]
    rw [if_neg (by omega)]
    exact ih fun d hd => h d (by simp [hd])

/-- A read after a write: the value written at its address, every other cell as before. -/
theorem Memory.read_write {m : List Cell} (h : Memory.wf m) (a v b : Nat) :
    Memory.read (Memory.write m a v) b = if b = a then v else Memory.read m b := by
  induction m with
  | nil =>
    by_cases hb : b = a
    · by_cases hv : v = 0 <;> simp [Memory.write, Memory.read, hv, hb]
    · by_cases hv : v = 0 <;> simp [Memory.write, Memory.read, hv, hb, Ne.symm hb]
  | cons c cs ih =>
    obtain ⟨hp, hz⟩ := h
    rw [List.pairwise_cons] at hp
    have htail : Memory.wf cs := ⟨hp.2, fun d hd => hz d (by simp [hd])⟩
    have hpast : ∀ x ≤ c.1, Memory.read cs x = 0 :=
      fun x hx => Memory.read_eq_zero_of_lt fun d hd => by have := hp.1 d hd; omega
    simp only [Memory.write]
    split
    · next hlt =>
      simp only [Memory.read, ih htail]
      by_cases hb : b = a
      · rw [if_neg (by omega), if_pos hb, if_pos hb]
      · simp [hb]
    · split
      · next hle heq =>
        subst heq
        split
        · next hv =>
          by_cases hb : b = c.1
          · simp [hb, hv, hpast c.1 (Nat.le_refl _)]
          · simp [Memory.read, hb, Ne.symm hb]
        · by_cases hb : b = c.1 <;> simp [Memory.read, hb, eq_comm]
      · next hle hne =>
        split
        · next hv =>
          by_cases hb : b = a
          · subst hb
            simp [Memory.read, hne, hv, hpast b (by omega)]
          · simp [hb]
        · by_cases hb : b = a
          · simp [Memory.read, hb]
          · simp [Memory.read, hb, Ne.symm hb]

/-- Every cell of a memory after a write is the one written or was there before. -/
theorem Memory.mem_write {m : List Cell} {a v : Nat} {c : Cell} (h : c ∈ Memory.write m a v) :
    (c = (a, v) ∧ v ≠ 0) ∨ c ∈ m := by
  induction m with
  | nil =>
    simp only [Memory.write] at h
    split at h <;> simp_all
  | cons d ds ih =>
    simp only [Memory.write] at h
    split at h
    · rcases List.mem_cons.1 h with rfl | h
      · simp
      · rcases ih h with h | h
        · exact .inl h
        · exact .inr (by simp [h])
    · split at h
      · split at h
        · exact .inr (by simp [h])
        · next hv => rcases List.mem_cons.1 h with rfl | h <;> simp_all
      · split at h
        · exact .inr h
        · next hv => rcases List.mem_cons.1 h with rfl | h <;> simp_all

/-- A write keeps the canonical form. -/
theorem Memory.write_wf {m : List Cell} (h : Memory.wf m) (a v : Nat) : Memory.wf (Memory.write m a v) := by
  refine ⟨?_, fun c hc => ?_⟩
  · induction m with
    | nil => simp only [Memory.write]; split <;> simp
    | cons d ds ih =>
      obtain ⟨hp, hz⟩ := h
      have hp' := List.pairwise_cons.1 hp
      have htail : Memory.wf ds := ⟨hp'.2, fun e he => hz e (by simp [he])⟩
      simp only [Memory.write]
      split
      · next hlt =>
        refine List.pairwise_cons.2 ⟨fun e he => ?_, ih htail⟩
        rcases Memory.mem_write he with ⟨rfl, -⟩ | he
        · exact hlt
        · exact hp'.1 e he
      · split
        · next heq =>
          split
          · exact hp'.2
          · exact List.pairwise_cons.2 ⟨fun e he => by have := hp'.1 e he; simp only; omega, hp'.2⟩
        · split
          · exact hp
          · refine List.pairwise_cons.2 ⟨fun e he => ?_, hp⟩
            rcases List.mem_cons.1 he with rfl | he
            · simp only; omega
            · have := hp'.1 e he; simp only; omega
  · rcases Memory.mem_write hc with ⟨rfl, hv⟩ | hc
    · exact hv
    · exact h.2 c hc

/-- A cell of a canonical memory reads as it is listed. -/
theorem Memory.read_of_mem {m : List Cell} (h : Memory.wf m) {c : Cell} (hc : c ∈ m) : Memory.read m c.1 = c.2 := by
  induction m with
  | nil => simp at hc
  | cons d ds ih =>
    obtain ⟨hp, hz⟩ := h
    have hp' := List.pairwise_cons.1 hp
    rcases List.mem_cons.1 hc with rfl | hc
    · simp [Memory.read]
    · have := hp'.1 c hc
      simp only [Memory.read]
      rw [if_neg (by omega)]
      exact ih ⟨hp'.2, fun e he => hz e (by simp [he])⟩ hc

/-- A cell that is not listed reads 0 (R50). -/
theorem Memory.read_of_not_mem {m : List Cell} {a : Nat} (h : ∀ c ∈ m, c.1 ≠ a) : Memory.read m a = 0 := by
  induction m with
  | nil => rfl
  | cons d ds ih =>
    simp only [Memory.read]
    rw [if_neg (h d (by simp))]
    exact ih fun e he => h e (by simp [he])

/-- A value read is below a bound that every listed value is below. -/
theorem Memory.read_lt {m : List Cell} {n : Nat} (hn : 0 < n) (h : ∀ c ∈ m, c.2 < n) (a : Nat) :
    Memory.read m a < n := by
  induction m with
  | nil => exact hn
  | cons d ds ih =>
    simp only [Memory.read]
    split
    · exact h d (by simp)
    · exact ih fun e he => h e (by simp [he])

/-- The memory of the state after reset has the canonical form. -/
theorem reset_memory_wf : Memory.wf State.reset.mem := ⟨.nil, by simp [State.reset, State.create]⟩

end Sys2Proof.Machine
end

