-- ==== Sys2Proof/Laws/State.lean ====
section
/-!
SUPPORT. One lemma per field per update of the state, so that no proof unfolds a record update.
-/

namespace Sys2Proof.Machine

/-! ### advance -/

@[simp] theorem State.advance_arch (s : State) : s.advance.arch = s.arch := rfl
@[simp] theorem State.advance_pc (s : State) : s.advance.pc = s.pc + 1 := rfl
@[simp] theorem State.advance_x (s : State) : s.advance.x = s.x := rfl
@[simp] theorem State.advance_mem (s : State) : s.advance.mem = s.mem := rfl
@[simp] theorem State.advance_buttons (s : State) : s.advance.buttons = s.buttons := rfl
@[simp] theorem State.advance_display (s : State) : s.advance.display = s.display := rfl
@[simp] theorem State.advance_is (s : State) : s.advance.is = s.is := rfl
@[simp] theorem State.advance_fault (s : State) : s.advance.fault = s.fault := rfl
@[simp] theorem State.advance_draws (s : State) : s.advance.draws = s.draws := rfl

/-! ### jumpTo -/

@[simp] theorem State.jumpTo_arch (s : State) (target : Int) : (s.jumpTo target).arch = s.arch := rfl
@[simp] theorem State.jumpTo_pc (s : State) (target : Int) : (s.jumpTo target).pc = target := rfl
@[simp] theorem State.jumpTo_x (s : State) (target : Int) : (s.jumpTo target).x = s.x := rfl
@[simp] theorem State.jumpTo_mem (s : State) (target : Int) : (s.jumpTo target).mem = s.mem := rfl
@[simp] theorem State.jumpTo_buttons (s : State) (target : Int) : (s.jumpTo target).buttons = s.buttons := rfl
@[simp] theorem State.jumpTo_display (s : State) (target : Int) : (s.jumpTo target).display = s.display := rfl
@[simp] theorem State.jumpTo_is (s : State) (target : Int) : (s.jumpTo target).is = s.is := rfl
@[simp] theorem State.jumpTo_fault (s : State) (target : Int) : (s.jumpTo target).fault = s.fault := rfl
@[simp] theorem State.jumpTo_draws (s : State) (target : Int) : (s.jumpTo target).draws = s.draws := rfl

/-! ### setReg -/

@[simp] theorem State.setReg_arch (s : State) (i : Nat) (v : Int) : (s.setReg i v).arch = s.arch := rfl
@[simp] theorem State.setReg_pc (s : State) (i : Nat) (v : Int) : (s.setReg i v).pc = s.pc := rfl
@[simp] theorem State.setReg_x (s : State) (i : Nat) (v : Int) : (s.setReg i v).x = s.x.set i (trunc s.arch.W v) := rfl
@[simp] theorem State.setReg_mem (s : State) (i : Nat) (v : Int) : (s.setReg i v).mem = s.mem := rfl
@[simp] theorem State.setReg_buttons (s : State) (i : Nat) (v : Int) : (s.setReg i v).buttons = s.buttons := rfl
@[simp] theorem State.setReg_display (s : State) (i : Nat) (v : Int) : (s.setReg i v).display = s.display := rfl
@[simp] theorem State.setReg_is (s : State) (i : Nat) (v : Int) : (s.setReg i v).is = s.is := rfl
@[simp] theorem State.setReg_fault (s : State) (i : Nat) (v : Int) : (s.setReg i v).fault = s.fault := rfl
@[simp] theorem State.setReg_draws (s : State) (i : Nat) (v : Int) : (s.setReg i v).draws = s.draws := rfl

/-! ### writeC -/

@[simp] theorem State.writeC_arch (s : State) (v : Int) : (s.writeC v).arch = s.arch := rfl
@[simp] theorem State.writeC_pc (s : State) (v : Int) : (s.writeC v).pc = s.pc := rfl
@[simp] theorem State.writeC_x (s : State) (v : Int) : (s.writeC v).x = s.x.set s.arch.C (trunc s.arch.W v) := rfl
@[simp] theorem State.writeC_mem (s : State) (v : Int) : (s.writeC v).mem = s.mem := rfl
@[simp] theorem State.writeC_buttons (s : State) (v : Int) : (s.writeC v).buttons = s.buttons := rfl
@[simp] theorem State.writeC_display (s : State) (v : Int) : (s.writeC v).display = s.display := rfl
@[simp] theorem State.writeC_is (s : State) (v : Int) : (s.writeC v).is = s.is := rfl
@[simp] theorem State.writeC_fault (s : State) (v : Int) : (s.writeC v).fault = s.fault := rfl
@[simp] theorem State.writeC_draws (s : State) (v : Int) : (s.writeC v).draws = s.draws := rfl

/-! ### setDisplay -/

@[simp] theorem State.setDisplay_arch (s : State) (row col v : Nat) : (s.setDisplay row col v).arch = s.arch := rfl
@[simp] theorem State.setDisplay_pc (s : State) (row col v : Nat) : (s.setDisplay row col v).pc = s.pc := rfl
@[simp] theorem State.setDisplay_x (s : State) (row col v : Nat) : (s.setDisplay row col v).x = s.x := rfl
@[simp] theorem State.setDisplay_mem (s : State) (row col v : Nat) : (s.setDisplay row col v).mem = s.mem := rfl
@[simp] theorem State.setDisplay_buttons (s : State) (row col v : Nat) : (s.setDisplay row col v).buttons = s.buttons := rfl
@[simp] theorem State.setDisplay_display (s : State) (row col v : Nat) : (s.setDisplay row col v).display = s.display.modify row fun cells => cells.set col v := rfl
@[simp] theorem State.setDisplay_is (s : State) (row col v : Nat) : (s.setDisplay row col v).is = s.is := rfl
@[simp] theorem State.setDisplay_fault (s : State) (row col v : Nat) : (s.setDisplay row col v).fault = s.fault := rfl
@[simp] theorem State.setDisplay_draws (s : State) (row col v : Nat) : (s.setDisplay row col v).draws = s.draws := rfl

/-! ### countDraw -/

@[simp] theorem State.countDraw_arch (s : State) : s.countDraw.arch = s.arch := rfl
@[simp] theorem State.countDraw_pc (s : State) : s.countDraw.pc = s.pc := rfl
@[simp] theorem State.countDraw_x (s : State) : s.countDraw.x = s.x := rfl
@[simp] theorem State.countDraw_mem (s : State) : s.countDraw.mem = s.mem := rfl
@[simp] theorem State.countDraw_buttons (s : State) : s.countDraw.buttons = s.buttons := rfl
@[simp] theorem State.countDraw_display (s : State) : s.countDraw.display = s.display := rfl
@[simp] theorem State.countDraw_is (s : State) : s.countDraw.is = s.is := rfl
@[simp] theorem State.countDraw_fault (s : State) : s.countDraw.fault = s.fault := rfl
@[simp] theorem State.countDraw_draws (s : State) : s.countDraw.draws = s.draws + 1 := rfl

/-! ### raise -/

@[simp] theorem State.raise_arch (s : State) (r : FaultRecord) : (s.raise r).arch = s.arch := rfl
@[simp] theorem State.raise_pc (s : State) (r : FaultRecord) : (s.raise r).pc = s.pc := rfl
@[simp] theorem State.raise_x (s : State) (r : FaultRecord) : (s.raise r).x = s.x := rfl
@[simp] theorem State.raise_mem (s : State) (r : FaultRecord) : (s.raise r).mem = s.mem := rfl
@[simp] theorem State.raise_buttons (s : State) (r : FaultRecord) : (s.raise r).buttons = s.buttons := rfl
@[simp] theorem State.raise_display (s : State) (r : FaultRecord) : (s.raise r).display = s.display := rfl
@[simp] theorem State.raise_is (s : State) (r : FaultRecord) : (s.raise r).is = s.is := rfl
@[simp] theorem State.raise_fault (s : State) (r : FaultRecord) : (s.raise r).fault = some r := rfl
@[simp] theorem State.raise_draws (s : State) (r : FaultRecord) : (s.raise r).draws = s.draws := rfl

/-! ### writeReg -/

theorem State.writeReg_x (s : State) (i : Nat) (v : Int) :
    (s.writeReg i v).x = if dropsWrite s.arch i then s.x else s.x.set i (trunc s.arch.W v) := by
  unfold State.writeReg; split <;> rfl

@[simp] theorem State.writeReg_arch (s : State) (i : Nat) (v : Int) : (s.writeReg i v).arch = s.arch := by
  unfold State.writeReg; split <;> rfl

@[simp] theorem State.writeReg_pc (s : State) (i : Nat) (v : Int) : (s.writeReg i v).pc = s.pc := by
  unfold State.writeReg; split <;> rfl

@[simp] theorem State.writeReg_mem (s : State) (i : Nat) (v : Int) : (s.writeReg i v).mem = s.mem := by
  unfold State.writeReg; split <;> rfl

@[simp] theorem State.writeReg_buttons (s : State) (i : Nat) (v : Int) : (s.writeReg i v).buttons = s.buttons := by
  unfold State.writeReg; split <;> rfl

@[simp] theorem State.writeReg_display (s : State) (i : Nat) (v : Int) : (s.writeReg i v).display = s.display := by
  unfold State.writeReg; split <;> rfl

@[simp] theorem State.writeReg_is (s : State) (i : Nat) (v : Int) : (s.writeReg i v).is = s.is := by
  unfold State.writeReg; split <;> rfl

@[simp] theorem State.writeReg_fault (s : State) (i : Nat) (v : Int) : (s.writeReg i v).fault = s.fault := by
  unfold State.writeReg; split <;> rfl

@[simp] theorem State.writeReg_draws (s : State) (i : Nat) (v : Int) : (s.writeReg i v).draws = s.draws := by
  unfold State.writeReg; split <;> rfl

/-! ### cpuReset -/

@[simp] theorem State.hostReset_fst (s : State) : s.hostReset.1 = .ok := rfl
@[simp] theorem State.hostReset_snd (s : State) : s.hostReset.2 = s.cpuReset := rfl

@[simp] theorem State.cpuReset_arch (s : State) : s.cpuReset.arch = s.arch := rfl
@[simp] theorem State.cpuReset_pc (s : State) : s.cpuReset.pc = 0 := rfl
@[simp] theorem State.cpuReset_x (s : State) : s.cpuReset.x = (State.create s.arch).x := rfl
@[simp] theorem State.cpuReset_mem (s : State) : s.cpuReset.mem = [] := rfl
@[simp] theorem State.cpuReset_buttons (s : State) : s.cpuReset.buttons = List.replicate s.arch.B false := rfl
@[simp] theorem State.cpuReset_display (s : State) : s.cpuReset.display = List.replicate s.arch.M (List.replicate s.arch.M 0) := rfl
@[simp] theorem State.cpuReset_is (s : State) : s.cpuReset.is = s.is := rfl
@[simp] theorem State.cpuReset_fault (s : State) : s.cpuReset.fault = none := rfl
@[simp] theorem State.cpuReset_draws (s : State) : s.cpuReset.draws = s.draws := rfl

end Sys2Proof.Machine
end

