-- ==== Sys2Proof/Laws/Ops.lean ====
section
/-!
SUPPORT. What each shared operation does, said once: registers, the I/O decode, the display, random draws, fetch; and that each
keeps the invariants of Safety.lean.
-/

namespace Sys2Proof.Machine

/-! ### Truncation -/

theorem trunc_lt (W : Nat) (v : Int) : trunc W v < 2 ^ W := by
  have h : (0 : Int) < 2 ^ W := by positivity
  have h1 := Int.emod_nonneg v h.ne'
  have h2 := Int.emod_lt_of_pos v h
  unfold trunc
  zify
  omega

theorem trunc_of_lt {W v : Nat} (h : v < 2 ^ W) : trunc W (v : Int) = v := by
  unfold trunc
  rw [Int.emod_eq_of_lt (by positivity) (by exact_mod_cast h)]
  simp

theorem b2i_le_one (b : Bool) : 0 ≤ b2i b ∧ b2i b ≤ 1 := by cases b <;> decide

/-! ### What a well-formed descriptor gives -/

theorem wf_parts {D : Descriptor} (h : D.wf = true) :
    D.wfSizes = true ∧ D.wfFields = true ∧ D.wfDisjoint = true ∧ D.wfSpecial = true ∧ D.wfReserved = true ∧
    D.wfIo = true ∧ D.wfOpmap = true ∧ D.wfFormats = true := by
  simpa [Descriptor.wf, and_assoc] using h

theorem wf_one_le_W {D : Descriptor} (h : D.wf = true) : 1 ≤ D.W := by
  have := (wf_parts h).1
  simp only [Descriptor.wfSizes, Bool.and_eq_true, decide_eq_true_eq] at this
  exact this.1.2

theorem wf_C {D : Descriptor} (h : D.wf = true) : D.C + 1 = D.R ∧ D.reserved.lookup D.C = none := by
  have := (wf_parts h).2.2.2.1
  simp only [Descriptor.wfSpecial, Bool.and_eq_true, beq_iff_eq, Option.isNone_iff_eq_none] at this
  exact this.1

theorem wf_link {D : Descriptor} (h : D.wf = true) {l : Nat} (hl : D.link = some l) :
    l < D.R ∧ D.reserved.lookup l = none := by
  have := (wf_parts h).2.2.2.1
  simp only [Descriptor.wfSpecial, Bool.and_eq_true, hl, Option.all_some, decide_eq_true_eq,
    Option.isNone_iff_eq_none] at this
  exact this.2

theorem wf_reserved {D : Descriptor} (h : D.wf = true) {p : Nat × Nat} (hp : p ∈ D.reserved) :
    p.1 < D.R ∧ p.2 < 2 ^ D.W := by
  have := (wf_parts h).2.2.2.2.1
  simp only [Descriptor.wfReserved, Bool.and_eq_true, List.all_eq_true, decide_eq_true_eq] at this
  exact this.1 p hp

theorem wf_reserved_nodup {D : Descriptor} (h : D.wf = true) : (D.reserved.map (·.1)).Nodup := by
  have := (wf_parts h).2.2.2.2.1
  simp only [Descriptor.wfReserved, Bool.and_eq_true, distinct, decide_eq_true_eq] at this
  exact this.2

theorem wf_io {D : Descriptor} (h : D.wf = true) : D.B ≤ D.T ∧ D.M * D.M ≤ D.T ∧ D.T ≤ 2 ^ D.W := by
  have := (wf_parts h).2.2.2.2.2.1
  simp only [Descriptor.wfIo, Bool.and_eq_true, decide_eq_true_eq] at this
  exact ⟨this.1.1, this.1.2, this.2⟩

theorem lookup_mem {l : List (Nat × α)} {i : Nat} {c : α} (h : l.lookup i = some c) : (i, c) ∈ l := by
  induction l with
  | nil => simp at h
  | cons p ps ih =>
    obtain ⟨k, d⟩ := p
    rw [List.lookup_cons] at h
    split at h
    · next hk => simp_all
    · next hk => exact List.mem_cons_of_mem _ (ih h)

theorem lookup_of_mem {l : List (Nat × α)} (hn : (l.map (·.1)).Nodup) {i : Nat} {c : α} (h : (i, c) ∈ l) :
    l.lookup i = some c := by
  induction l with
  | nil => simp at h
  | cons p ps ih =>
    obtain ⟨k, d⟩ := p
    rw [List.map_cons, List.nodup_cons] at hn
    rcases List.mem_cons.1 h with h | h
    · obtain ⟨rfl, rfl⟩ := Prod.mk.inj h
      simp
    · have hne : (i == k) = false := by
        simpa using fun e : i = k => hn.1 (List.mem_map.2 ⟨(i, c), h, e⟩)
      rw [List.lookup_cons, hne]
      exact ih hn.2 h

theorem dropsWrite_C_write {D : Descriptor} (h : D.wf = true) (hw : D.cExplicitWrite = .write) :
    dropsWrite D D.C = false := by
  simp [dropsWrite, (wf_C h).2, hw]

/-! ### Registers -/

theorem State.readReg_congr {s t : State} (ha : t.arch = s.arch) (hx : t.x = s.x) (i : Nat) :
    t.readReg i = s.readReg i := by simp [State.readReg, ha, hx]

@[simp] theorem State.readReg_advance (s : State) (i : Nat) : s.advance.readReg i = s.readReg i := rfl
@[simp] theorem State.readReg_jumpTo (s : State) (v : Int) (i : Nat) : (s.jumpTo v).readReg i = s.readReg i := rfl
@[simp] theorem State.readReg_setDisplay (s : State) (r c v i : Nat) :
    (s.setDisplay r c v).readReg i = s.readReg i := rfl
@[simp] theorem State.readReg_countDraw (s : State) (i : Nat) : s.countDraw.readReg i = s.readReg i := rfl
@[simp] theorem State.readReg_raise (s : State) (r : FaultRecord) (i : Nat) : (s.raise r).readReg i = s.readReg i := rfl

/-- A reserved register reads its constant in every state (R34). -/
theorem State.readReg_reserved {s : State} {i c : Nat} (h : s.arch.reserved.lookup i = some c) : s.readReg i = c := by
  simp [State.readReg, h]

/-- The stored value of one register after `x[i] := trunc_W(v)`, as it reads. -/
theorem State.readReg_setReg {s : State} {i : Nat} (hi : i < s.x.length) (hr : s.arch.reserved.lookup i = none)
    (v : Int) (j : Nat) : (s.setReg i v).readReg j = if j = i then trunc s.arch.W v else s.readReg j := by
  by_cases hj : j = i
  · subst hj
    simp [State.readReg, hr, List.getD, hi]
  · simp [State.readReg, hj, List.getD, List.getElem?_set_ne (Ne.symm hj)]

/-- The register-write primitive (R33): the write lands truncated or is dropped, and no other register changes. -/
theorem State.writeReg_regWritten {s : State} {i : Nat} (hi : i < s.x.length) (v : Int) :
    RegWritten s (s.writeReg i v) i v := by
  intro j
  by_cases hd : dropsWrite s.arch i = true
  · simp [State.writeReg, hd]
  · have hr : s.arch.reserved.lookup i = none := by
      simp only [dropsWrite, Bool.or_eq_true, not_or, Option.isSome_iff_ne_none, ne_eq, not_not] at hd
      exact hd.1
    simp [State.writeReg, hd, State.readReg_setReg hi hr]

/-- cmp's write of the comparison register (R33), which is never dropped. -/
theorem State.readReg_writeC {s : State} (hw : s.arch.wf = true) (hx : s.x.length = s.arch.R) (v : Int) (j : Nat) :
    (s.writeC v).readReg j = if j = s.arch.C then trunc s.arch.W v else s.readReg j := by
  have := wf_C hw
  exact State.readReg_setReg (by omega) this.2 v j

theorem State.readReg_lt {s : State} (h : s.Inv) (i : Nat) : s.readReg i < 2 ^ s.arch.W := by
  unfold State.readReg
  cases hl : s.arch.reserved.lookup i with
  | some c => exact (wf_reserved h.archWf (lookup_mem hl)).2
  | none =>
    simp only [Option.getD_none, List.getD]
    cases hx : s.x[i]? with
    | none => simp
    | some v => exact h.regRange v (List.mem_of_getElem? hx)

/-- Every field of the frame of an instruction that only writes a register and `pc`. -/
theorem State.writeReg_frame (s : State) (i : Nat) (v : Int) :
    SameMemory s (s.writeReg i v) ∧ SameDisplay s (s.writeReg i v) ∧ SameHostSide s (s.writeReg i v) := by
  refine ⟨fun a => by simp, fun r c => by simp [State.displayCell], by simp, by simp, by simp, by simp⟩

/-! ### The display and the I/O decode -/

theorem State.displayCell_setDisplay {s : State} (h : s.Inv) {row col : Nat} (hr : row < s.arch.M)
    (hc : col < s.arch.M) (v r c : Nat) :
    (s.setDisplay row col v).displayCell r c = if r = row ∧ c = col then v else s.displayCell r c := by
  have hrow : row < s.display.length := by rw [h.rowCount]; exact hr
  simp only [State.displayCell, State.setDisplay_display, List.getD, List.getElem?_modify]
  by_cases h1 : row = r
  · subst h1
    have hlen : s.display[row].length = s.arch.M := h.columnCount _ (List.getElem_mem hrow)
    by_cases h2 : col = c
    · subst h2; simp [hrow, hlen, hc]
    · simp [hrow, List.getElem?_set_ne h2, Ne.symm h2]
  · simp only [if_neg h1]
    rw [if_neg (fun hh => h1 hh.1.symm)]
    simp

theorem div_mod_lt {a M : Nat} (h : a < M * M) : a / M < M ∧ a % M < M := by
  have hM : 0 < M := by
    rcases Nat.eq_zero_or_pos M with rfl | h0
    · simp at h
    · exact h0
  exact ⟨Nat.div_lt_of_lt_mul h, Nat.mod_lt _ hM⟩

/-- What MemRead answers, by the address ranges of R63. -/
theorem State.memRead_cases (s : State) (a : Nat) :
    (a < s.arch.B ∧ s.memRead a = some (s.button a)) ∨
    (s.arch.B ≤ a ∧ a < s.arch.T ∧ s.memRead a = none) ∨
    (s.arch.B ≤ a ∧ s.arch.T ≤ a ∧ s.memRead a = some (Memory.read s.mem a)) := by
  unfold State.memRead
  by_cases h1 : a < s.arch.B
  · simp [h1]
  · by_cases h2 : a < s.arch.T
    · simp [h1, h2]; omega
    · simp [h1, h2]; omega

/-- What MemWrite answers, by the address ranges of R64. -/
theorem State.memWrite_cases (s : State) (a v : Nat) :
    (a < s.arch.M * s.arch.M ∧ s.memWrite a v = some (s.setDisplay (a / s.arch.M) (a % s.arch.M) v)) ∨
    (s.arch.M * s.arch.M ≤ a ∧ a < s.arch.T ∧ s.memWrite a v = none) ∨
    (s.arch.M * s.arch.M ≤ a ∧ s.arch.T ≤ a ∧ s.memWrite a v = some { s with mem := Memory.write s.mem a v }) := by
  unfold State.memWrite
  by_cases h1 : a < s.arch.M * s.arch.M
  · simp [h1]
  · by_cases h2 : a < s.arch.T
    · simp [h1, h2]; omega
    · simp [h1, h2]; omega

theorem State.button_le_one (s : State) (a : Nat) : s.button a ≤ 1 := by
  unfold State.button; cases s.buttons.getD a false <;> decide

theorem State.memRead_lt {s : State} (h : s.Inv) {a v : Nat} (hv : s.memRead a = some v) : v < 2 ^ s.arch.W := by
  have hW := wf_one_le_W h.archWf
  rcases s.memRead_cases a with ⟨-, hr⟩ | ⟨-, -, hr⟩ | ⟨-, -, hr⟩
  · have := s.button_le_one a
    have : 2 ^ 1 ≤ 2 ^ s.arch.W := Nat.pow_le_pow_right (by omega) hW
    have := hr.symm.trans hv
    simp only [Option.some.injEq] at this
    omega
  · simp [hr] at hv
  · rw [hr] at hv
    obtain rfl := Option.some.inj hv
    exact Memory.read_lt (by positivity) (fun c hc => (h.memRange c hc).2.2) a

/-! ### Fetch -/

theorem State.fetch_eq_some {s : State} {w : Word} : s.fetch = some w ↔ 0 ≤ s.pc ∧ s.is[s.pc.toNat]? = some w := by
  unfold State.fetch
  split
  · simp; omega
  · next h => simp; omega

theorem State.fetch_eq_none {s : State} : s.fetch = none ↔ s.pc < 0 ∨ (s.is.length : Int) ≤ s.pc := by
  unfold State.fetch
  split
  · next h => simp [h]
  · next h => rw [List.getElem?_eq_none_iff]; omega

/-! ### The invariants -/

theorem State.Inv.advance {s : State} (h : s.Inv) : s.advance.Inv := { h with }
theorem State.Inv.jumpTo {s : State} (h : s.Inv) (v : Int) : (s.jumpTo v).Inv := { h with }
theorem State.Inv.countDraw {s : State} (h : s.Inv) : s.countDraw.Inv := { h with }
theorem State.Inv.raise {s : State} (h : s.Inv) (r : FaultRecord) : (s.raise r).Inv := { h with }

theorem State.Inv.setReg {s : State} (h : s.Inv) {i : Nat} (hi : s.arch.reserved.lookup i = none) (v : Int) :
    (s.setReg i v).Inv :=
  { h with
    regCount := by simp [h.regCount]
    regRange := fun u hu => by
      rcases List.mem_or_eq_of_mem_set hu with hu | rfl
      · exact h.regRange u hu
      · exact trunc_lt _ _
    reservedHeld := fun p hp => by
      have hne : i ≠ p.1 := fun e => by
        have := lookup_of_mem (wf_reserved_nodup h.archWf) (i := p.1) (c := p.2) hp
        rw [e, this] at hi
        simp at hi
      simp only [State.setReg_x, List.getElem?_set_ne hne]
      exact h.reservedHeld p hp }

theorem State.Inv.writeReg {s : State} (h : s.Inv) (i : Nat) (v : Int) : (s.writeReg i v).Inv := by
  unfold State.writeReg
  split
  · exact h
  · next hd =>
    refine h.setReg ?_ v
    simp only [dropsWrite, Bool.or_eq_true, not_or, Option.isSome_iff_ne_none, ne_eq, not_not] at hd
    exact hd.1

theorem State.Inv.writeC {s : State} (h : s.Inv) (v : Int) : (s.writeC v).Inv := h.setReg (wf_C h.archWf).2 v

theorem State.Inv.setDisplay {s : State} (h : s.Inv) (row col : Nat) {v : Nat} (hv : v < 2 ^ s.arch.W) :
    (s.setDisplay row col v).Inv := by
  have key : ∀ cells ∈ (s.setDisplay row col v).display, cells ∈ s.display ∨ ∃ old ∈ s.display, cells = old.set col v := by
    intro cells hc
    obtain ⟨k, hk⟩ := List.mem_iff_getElem?.1 hc
    simp only [State.setDisplay_display, List.getElem?_modify] at hk
    obtain ⟨old, ho, he⟩ := Option.map_eq_some_iff.1 hk
    have hmem := List.mem_of_getElem? ho
    split at he
    · exact .inr ⟨old, hmem, he.symm⟩
    · exact .inl (he ▸ hmem)
  exact { h with
    rowCount := by simp [h.rowCount]
    columnCount := fun cells hc => by
      rcases key cells hc with hm | ⟨old, hm, rfl⟩
      · exact h.columnCount _ hm
      · simpa using h.columnCount _ hm
    displayRange := fun cells hc u hu => by
      rcases key cells hc with hm | ⟨old, hm, rfl⟩
      · exact h.displayRange _ hm u hu
      · rcases List.mem_or_eq_of_mem_set hu with hu | rfl
        · exact h.displayRange _ hm u hu
        · exact hv }

theorem State.Inv.memWrite {s t : State} (h : s.Inv) {a v : Nat} (ha : a < 2 ^ s.arch.W) (hv : v < 2 ^ s.arch.W)
    (ht : s.memWrite a v = some t) : t.Inv := by
  rcases s.memWrite_cases a v with ⟨-, he⟩ | ⟨-, -, he⟩ | ⟨-, hT, he⟩ <;> rw [he] at ht
  · exact Option.some.inj ht ▸ h.setDisplay _ _ hv
  · cases ht
  · obtain rfl := Option.some.inj ht
    exact { h with
      memForm := Memory.write_wf h.memForm a v
      memRange := fun c hc => by
        rcases Memory.mem_write hc with ⟨rfl, -⟩ | hc
        · exact ⟨hT, ha, hv⟩
        · exact h.memRange c hc }

end Sys2Proof.Machine
end

