-- ==== Sys2Proof/Laws/Exec.lean ====
section
/-!
SUPPORT. What executing an instruction, and a step, can do: one equation per meaning where its register fields name registers,
and one inversion of `exec` and of `step` for every property of all of them.
-/

namespace Sys2Proof.Machine

/-! ### The check of register fields -/

theorem checkReg_ok {s : State} {i : Nat} (h : i < s.arch.R) (f : RegField) (k : Host.Outcome State Fault Refusal) :
    checkReg s f i k = k := if_pos h

theorem checkReg_bad {s : State} {i : Nat} (h : s.arch.R ≤ i) (f : RegField) (k : Host.Outcome State Fault Refusal) :
    checkReg s f i k = .next (s.raise (.badRegister s.pc f i)) := if_neg (by omega)

theorem checkRegs_ok {s : State} {a b : Nat} (ha : a < s.arch.R) (hb : b < s.arch.R)
    (k : Host.Outcome State Fault Refusal) : checkRegs s a b k = k := by
  rw [checkRegs, checkReg_ok ha, checkReg_ok hb]

/-- A checked operation that answers a next state raised BadRegister or answered it itself. -/
theorem checkReg_next {s t : State} {f : RegField} {i : Nat} {k : Host.Outcome State Fault Refusal}
    (h : checkReg s f i k = .next t) : t = s.raise (.badRegister s.pc f i) ∨ i < s.arch.R ∧ k = .next t := by
  unfold checkReg at h
  split at h
  · next hi => exact .inr ⟨hi, h⟩
  · cases h; exact .inl rfl

theorem checkRegs_next {s t : State} {a b : Nat} {k : Host.Outcome State Fault Refusal}
    (h : checkRegs s a b k = .next t) :
    (∃ r, t = s.raise r) ∨ a < s.arch.R ∧ b < s.arch.R ∧ k = .next t := by
  rcases checkReg_next h with rfl | ⟨ha, h⟩
  · exact .inl ⟨_, rfl⟩
  · rcases checkReg_next h with rfl | ⟨hb, h⟩
    · exact .inl ⟨_, rfl⟩
    · exact .inr ⟨ha, hb, h⟩

/-! ### What a step can do -/

/-- The shapes of a next state, with the instruction executed where it is the only one that makes the shape; `none` where
none is (AddressFault, an unrecognized word). -/
inductive Effect (s : State) (i : Option Instr) : State → Prop where
  /-- a fault is raised, and nothing else changes -/
  | raised (r : FaultRecord) : Effect s i (s.raise r)
  /-- a register write and `pc <- p + 1` -/
  | wrote (ra : Nat) (v : Int) (h : i.bind (Instr.destination s.arch) = some ra) : Effect s i (s.writeReg ra v).advance
  /-- the same with a random draw counted -/
  | drew (ra v : Nat) (imm : Int) (h : i = some (.rand ra imm)) : Effect s i (s.countDraw.writeReg ra v).advance
  /-- a store and `pc <- p + 1` -/
  | stored (ra rb : Nat) (u : State) (h : s.memWrite (s.readReg rb) (s.readReg ra) = some u)
      (hi : i = some (.sw ra rb)) : Effect s i u.advance
  /-- cmp's write of the comparison register and `pc <- p + 1` -/
  | compared (ra rb : Nat) (b : Bool) (h : i = some (.cmp ra rb)) : Effect s i (s.writeC (b2i b)).advance
  /-- only `pc` changes: a branch, j, jr, or an unrecognized word under `nop` -/
  | moved (target : Int) : Effect s i (s.jumpTo target)
  /-- jal: a register write and a jump -/
  | linked (l tgt : Nat) (h : i = some (.jal tgt)) (hl : s.arch.link = some l) :
    Effect s i ((s.writeReg l (s.pc + 1)).jumpTo tgt)

theorem randWith_effect {u ra : Nat} {imm : Int} {s t : State} (h : randWith u ra imm s = .next t) :
    Effect s (some (.rand ra imm)) t := by
  unfold randWith at h
  split at h <;> cases h
  · exact .raised _
  · exact .drew _ _ imm rfl

/-- Inversion of `exec`: the shapes of its next states, over all instructions. -/
theorem exec_effect {i : Instr} {s t : State} (h : exec i s = .next t) : Effect s (some i) t := by
  cases i with
  | add ra rb | sub ra rb | mov ra rb =>
    rcases checkRegs_next h with ⟨r, rfl⟩ | ⟨-, -, h⟩
    · exact .raised r
    · cases h; exact .wrote _ _ rfl
  | li ra imm =>
    rcases checkReg_next h with rfl | ⟨-, h⟩
    · exact .raised _
    · cases h; exact .wrote _ _ rfl
  | rand ra imm =>
    rcases checkReg_next h with rfl | ⟨-, h⟩
    · exact .raised _
    · exact randWith_effect h
  | lw ra rb =>
    rcases checkRegs_next h with ⟨r, rfl⟩ | ⟨-, -, h⟩
    · exact .raised r
    · split at h <;> cases h
      · exact .raised _
      · exact .wrote _ _ rfl
  | sw ra rb =>
    rcases checkRegs_next h with ⟨r, rfl⟩ | ⟨-, -, h⟩
    · exact .raised r
    · split at h <;> cases h
      · exact .raised _
      · next u hu => exact .stored ra rb u hu rfl
  | cmp ra rb =>
    rcases checkReg_next h with rfl | ⟨-, h⟩
    · exact .raised _
    · split at h <;> cases h
      exact .compared _ _ _ rfl
  | beq ra imm | bne ra imm | bgt ra imm | jr ra rb =>
    rcases checkReg_next h with rfl | ⟨-, h⟩
    · exact .raised _
    · cases h; exact .moved _
  | j tgt => cases h; exact .moved _
  | jal tgt =>
    simp only [exec, execJal] at h
    split at h <;> cases h
    next l hl => exact .linked _ _ rfl hl

theorem State.unrecognizedWord_effect (s : State) (word : Word) : Effect s none (s.unrecognizedWord word) := by
  unfold State.unrecognizedWord
  split
  · exact .raised _
  · exact .moved _

/-- Inversion of `step`: a block that answers a next state was running and made one cycle. -/
theorem step_next {s t : State} (h : step s = .next t) : s.arch.wf = true ∧ s.fault = none ∧ s.cycle = .next t := by
  unfold step at h
  split at h
  · next hw =>
    split at h
    · cases h
    · next hf => exact ⟨hw, hf, h⟩
  · cases h

theorem step_of_mayStep {s : State} (h : s.mayStep) : step s = s.cycle := by
  simp [step, h.1, h.2]

/-- Inversion of one cycle: AddressFault, an unrecognized word, or the execution of the decoded instruction. -/
theorem cycle_next {s t : State} (h : s.cycle = .next t) :
    (s.fetch = none ∧ t = s.raise (.addressFault s.pc)) ∨
    (∃ word, s.fetch = some word ∧ decodeInstr s.arch word = none ∧ t = s.unrecognizedWord word) ∨
    ∃ word i, s.fetch = some word ∧ decodeInstr s.arch word = some i ∧ exec i s = .next t := by
  unfold State.cycle at h
  split at h
  · next hf => cases h; exact .inl ⟨hf, rfl⟩
  · next word hf =>
    split at h
    · next hd => cases h; exact .inr (.inl ⟨word, hf, hd, rfl⟩)
    · next i hd => exact .inr (.inr ⟨word, i, hf, hd, h⟩)

/-- Inversion of `step`: the shape of its next state, by the instruction it executes. -/
theorem step_effect {s t : State} (h : step s = .next t) : Effect s s.current t := by
  rcases cycle_next (step_next h).2.2 with ⟨-, rfl⟩ | ⟨word, hw, hd, rfl⟩ | ⟨word, i, hw, hd, he⟩
  · exact .raised _
  · rw [show s.current = none by simp [State.current, hw, hd]]
    exact s.unrecognizedWord_effect word
  · rw [show s.current = some i by simp [State.current, hw, hd]]
    exact exec_effect he

/-! ### What every step leaves -/

theorem State.memWrite_frame {s u : State} {a v : Nat} (h : s.memWrite a v = some u) :
    u.arch = s.arch ∧ u.pc = s.pc ∧ u.x = s.x ∧ u.buttons = s.buttons ∧ u.is = s.is ∧ u.fault = s.fault ∧
    u.draws = s.draws := by
  rcases s.memWrite_cases a v with ⟨-, he⟩ | ⟨-, -, he⟩ | ⟨-, -, he⟩ <;> rw [he] at h
  · obtain rfl := Option.some.inj h; simp
  · cases h
  · obtain rfl := Option.some.inj h; simp

/-- No step changes the descriptor, the latches or the instruction store. -/
theorem Effect.keeps {s t : State} {i : Option Instr} (h : Effect s i t) :
    t.arch = s.arch ∧ t.buttons = s.buttons ∧ t.is = s.is := by
  cases h with
  | stored ra rb u hu => have := s.memWrite_frame hu; simp [this]
  | _ => simp

/-- Every step keeps the data memory in canonical form. -/
theorem Effect.memory_wf {s t : State} {i : Option Instr} (h : Effect s i t) (hm : Memory.wf s.mem) : Memory.wf t.mem := by
  cases h with
  | stored ra rb u hu =>
    rcases s.memWrite_cases (s.readReg rb) (s.readReg ra) with ⟨-, he⟩ | ⟨-, -, he⟩ | ⟨-, -, he⟩ <;> rw [he] at hu
    · obtain rfl := Option.some.inj hu; simpa using hm
    · cases hu
    · obtain rfl := Option.some.inj hu; exact Memory.write_wf hm _ _
  | _ => simpa using hm

/-! ### Runs that leave a cell alone -/

@[simp] theorem State.runsWithoutStore_zero {a : Nat} {s u : State} : State.runsWithoutStore a 0 s u ↔ u = s := Iff.rfl

@[simp] theorem State.runsWithoutStore_succ {a n : Nat} {s u : State} :
    State.runsWithoutStore a (n + 1) s u ↔ ¬ s.storesTo a ∧ ∃ t, step s = .next t ∧ State.runsWithoutStore a n t u := Iff.rfl

end Sys2Proof.Machine
end

