-- ==== Sys2Proof/Laws/PerInstr.lean ====
section
/-!
SUPPORT. Statements made per instruction: one lemma per constructor of `Instr`.
-/

namespace Sys2Proof.Laws.DecodedOperandsFit

/-- Every instruction the decoder gives has its operands in the ranges of their fields (30_encoding.md R94 to R96, R98). -/
def Statement (i : Instr) : Prop :=
  ∀ (D : Descriptor) (word : Word), 1 ≤ D.iImm.w → decodeInstr D word = some i → i.fieldsFit D = true

theorem holds_fieldOf (word : Word) (f : Field) : f.holds (fieldOf word f) = true := by
  simpa [Field.holds] using fieldOf_lt word f

theorem holdsSigned_sext {f : Field} (hf : 1 ≤ f.w) (word : Word) :
    f.holdsSigned (sext f.w (fieldOf word f)) = true := by
  have := sext_range hf (fieldOf_lt word f)
  simp [Field.holdsSigned, this.1, this.2]

theorem add (ra rb : Nat) : Statement (.add ra rb) := by
  intro D word _ h
  obtain ⟨rfl, rfl⟩ := Instr.add.inj (regs_fit (decodeInstr_some h).2)
  simp [Instr.fieldsFit, holds_fieldOf]

theorem sub (ra rb : Nat) : Statement (.sub ra rb) := by
  intro D word _ h
  obtain ⟨rfl, rfl⟩ := Instr.sub.inj (regs_fit (decodeInstr_some h).2)
  simp [Instr.fieldsFit, holds_fieldOf]

theorem li (ra : Nat) (imm : Int) : Statement (.li ra imm) := by
  intro D word hk h
  obtain ⟨rfl, rfl⟩ := Instr.li.inj (regImm_fit (decodeInstr_some h).2)
  simp [Instr.fieldsFit, holds_fieldOf, holdsSigned_sext hk]

theorem mov (ra rb : Nat) : Statement (.mov ra rb) := by
  intro D word _ h
  obtain ⟨rfl, rfl⟩ := Instr.mov.inj (regs_fit (decodeInstr_some h).2)
  simp [Instr.fieldsFit, holds_fieldOf]

theorem rand (ra : Nat) (imm : Int) : Statement (.rand ra imm) := by
  intro D word hk h
  obtain ⟨rfl, rfl⟩ := Instr.rand.inj (regImm_fit (decodeInstr_some h).2)
  simp [Instr.fieldsFit, holds_fieldOf, holdsSigned_sext hk]

theorem lw (ra rb : Nat) : Statement (.lw ra rb) := by
  intro D word _ h
  obtain ⟨rfl, rfl⟩ := Instr.lw.inj (regs_fit (decodeInstr_some h).2)
  simp [Instr.fieldsFit, holds_fieldOf]

theorem sw (ra rb : Nat) : Statement (.sw ra rb) := by
  intro D word _ h
  obtain ⟨rfl, rfl⟩ := Instr.sw.inj (regs_fit (decodeInstr_some h).2)
  simp [Instr.fieldsFit, holds_fieldOf]

theorem cmp (ra rb : Nat) : Statement (.cmp ra rb) := by
  intro D word _ h
  obtain ⟨rfl, rfl⟩ := Instr.cmp.inj (regs_fit (decodeInstr_some h).2)
  simp [Instr.fieldsFit, holds_fieldOf]

theorem beq (ra : Nat) (imm : Int) : Statement (.beq ra imm) := by
  intro D word hk h
  obtain ⟨rfl, rfl⟩ := Instr.beq.inj (regImm_fit (decodeInstr_some h).2)
  simp [Instr.fieldsFit, holds_fieldOf, holdsSigned_sext hk]

theorem bne (ra : Nat) (imm : Int) : Statement (.bne ra imm) := by
  intro D word hk h
  obtain ⟨rfl, rfl⟩ := Instr.bne.inj (regImm_fit (decodeInstr_some h).2)
  simp [Instr.fieldsFit, holds_fieldOf, holdsSigned_sext hk]

theorem bgt (ra : Nat) (imm : Int) : Statement (.bgt ra imm) := by
  intro D word hk h
  obtain ⟨rfl, rfl⟩ := Instr.bgt.inj (regImm_fit (decodeInstr_some h).2)
  simp [Instr.fieldsFit, holds_fieldOf, holdsSigned_sext hk]

theorem j (tgt : Nat) : Statement (.j tgt) := by
  intro D word _ h
  obtain ⟨f, hf, he⟩ := tgt_fit (decodeInstr_some h).2
  obtain rfl := Instr.j.inj he
  simp [Instr.fieldsFit, hf, holds_fieldOf]

theorem jal (tgt : Nat) : Statement (.jal tgt) := by
  intro D word _ h
  obtain ⟨f, hf, he⟩ := tgt_fit (decodeInstr_some h).2
  obtain rfl := Instr.jal.inj he
  simp [Instr.fieldsFit, hf, holds_fieldOf]

theorem jr (ra rb : Nat) : Statement (.jr ra rb) := by
  intro D word _ h
  obtain ⟨rfl, rfl⟩ := Instr.jr.inj (regs_fit (decodeInstr_some h).2)
  simp [Instr.fieldsFit, holds_fieldOf]

end Sys2Proof.Laws.DecodedOperandsFit
end

