-- ==== Sys2Proof/Tests/Slice0.lean ====
section
/-!
SUPPORT. The model's own tests. Expected values are those of 95_test_vectors.md (L1 to L3), of the corner cases and examples of
30_encoding.md to 43_jumps.md, or of hand calculation from a rule; none was read off the model. Then, for every statement
that has hypotheses, a concrete state and operands that meet them.
-/

namespace Sys2Proof.Tests

open Sys2Proof.Machine

/-! ### Small states -/

/-- The block at creation under `D` with some registers set and `pc` placed. -/
def start (D : Descriptor) (regs : List (Nat × Int)) (pc : Int := 0) : State :=
  { regs.foldl (fun s p => s.setReg p.1 p.2) (State.create D) with pc := pc }

/-- A word at the state's `pc`, the last of the store. -/
def withWord (s : State) (word : Word) : State := { s with is := List.replicate s.pc.toNat 0 ++ [word] }

/-- What a step of `s` on `word` leaves in `f`. -/
def after {α : Type} (s : State) (word : Word) (f : State → α) : Option α :=
  match step (withWord s word) with
  | .next t => some (f t)
  | .fault _ => none
  | .refused _ => none

/-- What an execution answers, seen through `f`. -/
def ends {α : Type} (o : Host.Outcome State Fault Refusal) (f : State → α) : Option α :=
  match o with
  | .next t => some (f t)
  | .fault _ => none
  | .refused _ => none

/-- Whether an answer is the refusal `r`. -/
def refusedBy (o : Host.Outcome State Fault Refusal) (r : Refusal) : Bool :=
  match o with
  | .next _ => false
  | .fault _ => false
  | .refused q => decide (q = r)

/-- Whether an answer is the fault `r`. -/
def faultedBy (o : Host.Outcome State Fault Refusal) (r : Fault) : Bool :=
  match o with
  | .next _ => false
  | .fault q => decide (q = r)
  | .refused _ => false

/-- ARCH8 with `C_EXPLICIT_WRITE = drop`. -/
def drop8 : Descriptor := { arch8 with cExplicitWrite := .drop }
/-- ARCH8 with `UNRECOGNIZED = nop`. -/
def nop8 : Descriptor := { arch8 with unrecognized := .nop }
/-- ARCH8 with a store gap: `T = 120 > M*M = 100`. -/
def gap8 : Descriptor := { arch8 with T := 120 }
/-- ARCH8 with eight registers under its four-bit register fields. -/
def few8 : Descriptor := { arch8 with R := 8, C := 7 }
/-- ARCH8 with `RAND_MODE = none`. -/
def free8 : Descriptor := { arch8 with randMode := .none }
/-- ARCH16 with the comparison register as its link register and `drop`. -/
def linkC16 : Descriptor := { arch16 with link := some 15, cExplicitWrite := .drop }

/-! ### Well-formedness: each check refuses an ill-formed term -/

theorem test_wf_reference : arch8.wf ∧ arch16.wf ∧ resetArch.wf := by decide
theorem test_wf_variants : drop8.wf ∧ nop8.wf ∧ gap8.wf ∧ few8.wf ∧ free8.wf ∧ linkC16.wf := by decide
theorem test_wf_sizes : ({ arch8 with N := 0 } : Descriptor).wfSizes = false ∧
    ({ arch8 with W := 0 } : Descriptor).wfSizes = false ∧ ({ arch8 with R := 0 } : Descriptor).wfSizes = false := by
  decide
theorem test_wf_fields : ({ arch8 with iImm := ⟨0, 0⟩ } : Descriptor).wfFields = false ∧
    ({ arch8 with op := ⟨13, 4⟩ } : Descriptor).wfFields = false ∧
    ({ arch16 with jTgt := some ⟨0, 17⟩ } : Descriptor).wfFields = false := by decide
theorem test_wf_disjoint : ({ arch8 with rRb := ⟨6, 4⟩ } : Descriptor).wfDisjoint = false ∧
    ({ arch8 with rRb := ⟨3, 4⟩ } : Descriptor).wfDisjoint = false ∧
    ({ arch8 with iImm := ⟨0, 9⟩ } : Descriptor).wfDisjoint = false ∧
    ({ arch16 with jTgt := some ⟨0, 13⟩ } : Descriptor).wfDisjoint = false := by decide
theorem test_wf_special : ({ arch8 with C := 14 } : Descriptor).wfSpecial = false ∧
    ({ arch16 with link := some 16 } : Descriptor).wfSpecial = false ∧
    ({ arch16 with link := some 1 } : Descriptor).wfSpecial = false ∧
    ({ arch8 with reserved := [(15, 0)] } : Descriptor).wfSpecial = false := by decide
theorem test_wf_reserved : ({ arch8 with reserved := [(16, 0)] } : Descriptor).wfReserved = false ∧
    ({ arch8 with reserved := [(0, 256)] } : Descriptor).wfReserved = false ∧
    ({ arch8 with reserved := [(0, 0), (0, 1)] } : Descriptor).wfReserved = false := by decide
theorem test_wf_io : ({ arch8 with B := 101 } : Descriptor).wfIo = false ∧
    ({ arch8 with M := 11 } : Descriptor).wfIo = false ∧ ({ arch8 with T := 257 } : Descriptor).wfIo = false := by
  decide
theorem test_wf_opmap : ({ arch8 with opmap := [(1, .li), (1, .beq)] } : Descriptor).wfOpmap = false ∧
    ({ arch8 with opmap := [(1, .li), (2, .li)] } : Descriptor).wfOpmap = false ∧
    ({ arch8 with opmap := [(0, .li)] } : Descriptor).wfOpmap = false ∧
    ({ arch8 with opmap := [(16, .li)] } : Descriptor).wfOpmap = false ∧
    ({ arch8 with funct := some ⟨0, ⟨0, 4⟩, [(16, .add)]⟩ } : Descriptor).wfOpmap = false := by decide
theorem test_wf_formats : ({ arch8 with funct := some ⟨0, ⟨0, 4⟩, [(0, .j)]⟩ } : Descriptor).wfFormats = false ∧
    ({ arch16 with jTgt := none } : Descriptor).wfFormats = false ∧
    ({ arch16 with link := none } : Descriptor).wfFormats = false ∧
    ({ arch8 with cmpRel := none } : Descriptor).wfFormats = false := by decide
theorem test_instr_wf : Instr.wf arch8 (.li 15 (-128)) ∧ Instr.wf arch8 (.li 15 128) = false ∧
    Instr.wf arch8 (.li 0 (-129)) = false ∧ Instr.wf arch8 (.add 16 0) = false ∧ Instr.wf arch8 (.add 0 16) = false ∧
    Instr.wf arch8 (.li 16 0) = false ∧ Instr.wf arch8 (.j 0) = false ∧ Instr.wf arch16 (.j 4095) ∧
    Instr.wf arch16 (.j 4096) = false ∧ Instr.wf arch16 (.cmp 1 0) = false := by decide

/-! ### Decoding: every constructor, from words written out from 30_encoding.md R104 to R106 (95_test_vectors.md L2.1) -/

theorem test_decode_arch8_r : decodeInstr arch8 0b0000_0001_0010_0000 = some (.add 1 2) ∧
    decodeInstr arch8 0b0000_0001_0010_0001 = some (.sub 1 2) ∧
    decodeInstr arch8 0b0000_0011_0111_0010 = some (.mov 3 7) ∧
    decodeInstr arch8 0b0000_0010_0001_0011 = some (.lw 2 1) ∧
    decodeInstr arch8 0b0000_0010_0011_0100 = some (.sw 2 3) ∧
    decodeInstr arch8 0b0000_0011_1010_0101 = some (.cmp 3 10) ∧
    decodeInstr arch8 0x0006 = none ∧ decodeInstr arch8 0x0ABF = none := by decide
theorem test_decode_arch8_i : decodeInstr arch8 0b0001_0100_1100_1000 = some (.li 4 (-56)) ∧
    decodeInstr arch8 0b0001_0100_0111_1111 = some (.li 4 127) ∧
    decodeInstr arch8 0b0001_0100_1000_0000 = some (.li 4 (-128)) ∧
    decodeInstr arch8 0b0010_1111_1111_1111 = some (.beq 15 (-1)) ∧
    decodeInstr arch8 0b0011_0001_1111_1101 = some (.bne 1 (-3)) ∧
    decodeInstr arch8 0b0100_0001_0000_0010 = some (.bgt 1 2) ∧
    decodeInstr arch8 0b0101_0010_0000_1111 = some (.rand 2 15) ∧
    decodeInstr arch8 0x6123 = none ∧ decodeInstr arch8 0xF000 = none := by decide
theorem test_decode_arch16_r : decodeInstr arch16 0b0000_0010_0001_0000 = some (.add 2 1) ∧
    decodeInstr arch16 0b0001_0101_0010_0000 = some (.sub 5 2) ∧
    decodeInstr arch16 0b0010_1111_0011_1010 = some (.mov 15 3) ∧
    decodeInstr arch16 0b0011_0101_0100_0000 = some (.lw 5 4) ∧
    decodeInstr arch16 0b0100_0010_0011_0000 = some (.sw 2 3) ∧
    decodeInstr arch16 0b1100_1110_0111_1111 = some (.jr 14 7) := by decide
theorem test_decode_arch16_ij : decodeInstr arch16 0b0101_0100_1111_1111 = some (.li 4 (-1)) ∧
    decodeInstr arch16 0b0110_1111_1111_1111 = some (.beq 15 (-1)) ∧
    decodeInstr arch16 0b0111_0001_0000_0000 = some (.bne 1 0) ∧
    decodeInstr arch16 0b1000_0010_0000_0010 = some (.bgt 2 2) ∧
    decodeInstr arch16 0b1001_0010_1000_0000 = some (.rand 2 (-128)) ∧
    decodeInstr arch16 0b1010_1111_1111_1111 = some (.j 4095) ∧
    decodeInstr arch16 0b1011_0000_0000_0100 = some (.jal 4) ∧
    decodeInstr arch16 0xD000 = none ∧ decodeInstr arch16 0xFFFF = none := by decide
/-- The record of an unmapped opcode carries only `op`; one of an unmapped function code is still R-format. -/
theorem test_decode_records : decode arch8 0x6123 = ⟨.U, 6, none, none, none, none, none⟩ ∧
    decode arch8 0x0ABF = ⟨.R, 0, some 15, some 10, some 11, none, none⟩ ∧
    decode arch16 0x2F3A = ⟨.R, 2, none, some 15, some 3, none, none⟩ ∧
    decode arch16 0xA003 = ⟨.J, 10, none, none, none, none, some 3⟩ ∧
    decode arch8 0x31FD = ⟨.I, 3, none, some 1, none, some (-3), none⟩ := by decide
/-- 95_test_vectors.md L1.1. -/
theorem test_sext : sext 8 0 = 0 ∧ sext 8 127 = 127 ∧ sext 8 128 = -128 ∧ sext 8 200 = -56 ∧ sext 8 255 = -1 ∧
    sext 4 7 = 7 ∧ sext 4 8 = -8 ∧ sext 4 15 = -1 := by decide
/-- 95_test_vectors.md L2.1, the encoder laws. -/
theorem test_encode : encode arch8 (.li 4 (-56)) = some 0x14C8 ∧ encode arch8 (.cmp 3 10) = some 0x03A5 ∧
    encode arch16 (.mov 15 3) = some 0x2F30 ∧ encode arch16 (.jal 4) = some 0xB004 ∧ encode arch8 (.jal 4) = none := by
  decide

/-- 30_encoding.md R107, on words of 95_test_vectors.md. -/
theorem test_spell : (decodeInstr arch8 0x14C8).map Instr.spell = some "li r4, -56" ∧
    (decodeInstr arch8 0x0213).map Instr.spell = some "lw r2, (r1)" ∧
    (decodeInstr arch8 0x03A5).map Instr.spell = some "cmp r3" ∧
    (decodeInstr arch16 0xCE7F).map Instr.spell = some "jr r14" := by decide

/-! ### One step of each instruction (95_test_vectors.md L2.2 to L2.8) -/

theorem test_add : after (start arch8 [(1, 200), (2, 100)] 3) 0x0120 (fun t => (t.readReg 1, t.pc)) = some (44, 4) ∧
    after (start arch8 [(0, 200)]) 0x0000 (fun t => t.readReg 0) = some 144 ∧
    after (start arch8 [(15, 2), (1, 3)]) 0x0F10 (fun t => t.readReg 15) = some 5 ∧
    after (start arch16 [(2, 65535)]) 0x0210 (fun t => t.readReg 2) = some 0 := by decide
/-- Dropped: to a reserved register, and to `C` under `drop`. -/
theorem test_add_dropped : after (start arch16 [(2, 5)]) 0x0020 (fun t => (t.readReg 0, t.pc)) = some (0, 1) ∧
    after (start drop8 [(15, 2), (1, 3)]) 0x0F10 (fun t => (t.readReg 15, t.pc)) = some (2, 1) := by decide
theorem test_sub : after (start arch8 [(1, 3), (2, 5)]) 0x0121 (fun t => (t.readReg 1, t.pc)) = some (254, 1) ∧
    after (start arch8 [(3, 77)]) 0x0331 (fun t => t.readReg 3) = some 0 ∧
    after (start arch16 []) 0x1210 (fun t => t.readReg 2) = some 65535 ∧
    after (start arch16 [(2, 5)]) 0x1120 (fun t => t.readReg 1) = some 1 := by decide
theorem test_li : after (start arch8 []) 0x147F (fun t => t.readReg 4) = some 127 ∧
    after (start arch8 []) 0x1480 (fun t => (t.readReg 4, t.pc)) = some (128, 1) ∧
    after (start arch16 []) 0x5480 (fun t => t.readReg 4) = some 65408 ∧
    after (start arch16 []) 0x5009 (fun t => (t.readReg 0, t.pc)) = some (0, 1) := by decide
theorem test_mov : after (start arch8 [(7, 9)]) 0x0372 (fun t => (t.readReg 3, t.readReg 7, t.pc)) = some (9, 9, 1) ∧
    after (start arch16 []) 0x2510 (fun t => t.readReg 5) = some 1 ∧
    after (start arch16 [(5, 7)]) 0x2150 (fun t => t.readReg 1) = some 1 := by decide
/-- The set of each mode, on raw draws: `0x5280` admits 0 and 128 only, `0x9203` wraps into 0 to 3. -/
theorem test_rand : ends (randWith 255 2 (-128) (start arch8 [])) (fun t => (t.readReg 2, t.pc)) = some (128, 1) ∧
    ends (randWith 127 2 (-128) (start arch8 [])) (fun t => t.readReg 2) = some 0 ∧
    ends (randWith 170 2 85 (start arch8 [])) (fun t => t.readReg 2) = some 0 ∧
    ends (randWith 3 2 3 (start arch16 [])) (fun t => t.readReg 2) = some 3 ∧
    ends (randWith 0 2 (-1) (start free8 [])) (fun t => t.readReg 2) = some 0 ∧
    ends (randWith 3 0 3 (start arch16 [])) (fun t => (t.readReg 0, t.draws)) = some (0, 1) := by decide
theorem test_rand_bound : after (start arch16 [(2, 9)] 5) 0x92FF (fun t => (t.fault, t.readReg 2, t.pc, t.draws)) =
    some (some (.randBound 5 (-1)), 9, 5, 0) := by decide
theorem test_lw : after { start arch8 [(1, 3)] with buttons := [true, false, true, true] } 0x0213
      (fun t => (t.readReg 2, t.pc)) = some (1, 1) ∧
    after { start arch8 [(1, 100)] with mem := [(100, 5), (255, 6)] } 0x0213 (fun t => t.readReg 2) = some 5 ∧
    after { start arch8 [(1, 255)] with mem := [(100, 5), (255, 6)] } 0x0213 (fun t => t.readReg 2) = some 6 ∧
    after { start arch8 [(1, 200)] with mem := [(200, 7)] } 0x0113 (fun t => t.readReg 1) = some 7 := by decide
theorem test_lw_gap : after (start arch8 [(1, 4)]) 0x0213 (fun t => (t.fault, t.pc)) =
      some (some (.ioAddressError 0 4 .load), 0) ∧
    after (start arch8 [(1, 99)]) 0x0213 (fun t => t.fault) = some (some (.ioAddressError 0 99 .load)) ∧
    after (start arch16 [(3, 8)]) 0x3030 (fun t => t.fault) = some (some (.ioAddressError 0 8 .load)) ∧
    after (start arch16 [(3, 300)]) 0x3030 (fun t => (t.fault, t.readReg 0)) = some (none, 0) := by decide
theorem test_sw : after (start arch8 [(2, 7), (3, 12)]) 0x0234 (fun t => (t.displayCell 1 2, t.mem, t.pc)) =
      some (7, [], 1) ∧
    after (start arch8 [(2, 9), (1, 3)]) 0x0214 (fun t => (t.displayCell 0 3, t.button 3)) = some (9, 0) ∧
    after (start arch8 [(2, 9), (1, 99)]) 0x0214 (fun t => t.displayCell 9 9) = some 9 ∧
    after (start arch8 [(2, 9), (1, 100)]) 0x0214 (fun t => (t.mem, t.displayCell 9 9)) = some ([(100, 9)], 0) ∧
    after (start arch16 [(3, 256)]) 0x4130 (fun t => t.mem) = some [(256, 1)] := by decide
theorem test_sw_gap : after (start gap8 [(2, 9), (1, 100)]) 0x0214 (fun t => (t.fault, t.mem)) =
      some (some (.ioAddressError 0 100 .store), []) ∧
    after (start gap8 [(2, 9), (1, 119)]) 0x0214 (fun t => t.fault) = some (some (.ioAddressError 0 119 .store)) ∧
    after (start gap8 [(2, 9), (1, 120)]) 0x0214 (fun t => t.mem) = some [(120, 9)] := by decide
theorem test_cmp : after (start arch8 [(3, 5), (15, 5)]) 0x0305 (fun t => (t.readReg 15, t.pc)) = some (1, 1) ∧
    after (start arch8 [(3, 4), (15, 5)]) 0x0305 (fun t => t.readReg 15) = some 0 ∧
    after (start arch8 []) 0x03A5 (fun t => t.readReg 15) = some 1 ∧
    after (start arch8 [(15, 7)]) 0x0F05 (fun t => t.readReg 15) = some 1 ∧
    after (start drop8 [(3, 5), (15, 5)]) 0x0305 (fun t => t.readReg 15) = some 1 := by decide
theorem test_cmp_relations :
    after (start { arch8 with cmpRel := some .gt } [(3, 255), (15, 1)]) 0x0305 (fun t => t.readReg 15) = some 1 ∧
    after (start { arch8 with cmpRel := some .gt } [(15, 9)]) 0x0F05 (fun t => t.readReg 15) = some 0 ∧
    after (start { arch8 with cmpRel := some .ne } [(3, 4), (15, 5)]) 0x0305 (fun t => t.readReg 15) = some 1 := by
  decide
theorem test_beq : after (start arch8 [(2, 9), (15, 9)] 10) 0x2203 (fun t => t.pc) = some 14 ∧
    after (start arch8 [(2, 8), (15, 9)] 10) 0x2203 (fun t => t.pc) = some 11 ∧
    after (start arch8 [] 7) 0x2FFF (fun t => t.pc) = some 7 ∧
    after (start arch8 []) 0x2F7F (fun t => t.pc) = some 128 := by decide
/-- A negative target is held, and the next fetch faults. -/
theorem test_beq_negative : after (start arch8 []) 0x2F80 (fun t => (t.pc, t.fault)) = some (-127, none) ∧
    ends (step (start arch8 [] (-127))) (fun t => (t.pc, t.fault)) = some (-127, some (.addressFault (-127))) := by
  decide
theorem test_bne : after (start arch8 [(1, 4)] 6) 0x31FD (fun t => t.pc) = some 4 ∧
    after (start arch8 [] 6) 0x31FD (fun t => t.pc) = some 7 ∧
    after (start arch16 [] 4) 0x7100 (fun t => t.pc) = some 5 := by decide
theorem test_bgt : after (start arch8 [(1, 255), (15, 1)]) 0x4102 (fun t => t.pc) = some 3 ∧
    after (start arch8 [(1, 5), (15, 5)]) 0x4102 (fun t => t.pc) = some 1 ∧
    after (start arch8 [(15, 255)]) 0x4102 (fun t => t.pc) = some 1 ∧
    after (start arch16 [(2, 7), (15, 3)] 5) 0x8202 (fun t => t.pc) = some 8 := by decide
theorem test_j : after (start arch16 [] 3) 0xA003 (fun t => t.pc) = some 3 ∧
    after (start arch16 []) 0xAFFF (fun t => (t.pc, t.fault)) = some (4095, none) := by decide
theorem test_jal : after (start arch16 [] 2) 0xB004 (fun t => (t.readReg 14, t.pc)) = some (3, 4) ∧
    after (start arch16 [(14, 3)] 5) 0xB005 (fun t => (t.readReg 14, t.pc)) = some (6, 5) := by decide
/-- The link value is truncated; and `LINK = C` under `drop` (log 12). -/
theorem test_jal_link : ends (exec (.jal 4) (start arch16 [] 65535)) (fun t => (t.readReg 14, t.pc)) = some (0, 4) ∧
    after (start linkC16 [(15, 9)] 2) 0xB004 (fun t => (t.readReg 15, t.pc)) = some (9, 4) := by decide
theorem test_jr : after (start arch16 [(14, 3)] 7) 0xCE7F (fun t => t.pc) = some 3 ∧
    after (start arch16 [] 7) 0xC100 (fun t => t.pc) = some 1 ∧
    after (start arch16 [(5, 65535)] 7) 0xC500 (fun t => (t.pc, t.fault)) = some (65535, none) := by decide

/-! ### Unrecognized words, faults, priority (L2.9, L2.10) -/

theorem test_unrecognized_fault : after (start arch8 []) 0x6000 (fun t => (t.fault, t.pc)) =
      some (some (.unrecognizedInstruction 0 0x6000 6 none), 0) ∧
    after (start arch8 []) 0x0FFF (fun t => t.fault) = some (some (.unrecognizedInstruction 0 0x0FFF 0 (some 15))) ∧
    after (start arch16 []) 0xD000 (fun t => t.fault) = some (some (.unrecognizedInstruction 0 0xD000 13 none)) := by
  decide
theorem test_unrecognized_nop : after (start nop8 [(15, 4)]) 0x0FFF (fun t => (t.fault, t.pc, t.readReg 15)) =
    some (none, 1, 4) := by decide
theorem test_creation_fault : ends (step State.reset) (fun t => t) =
    some { State.reset with fault := some (.addressFault 0) } := by decide
theorem test_priority : ends (step { start arch8 [] 5 with is := [0x1105, 0x6000] }) (fun t => t.fault) =
      some (some (.addressFault 5)) ∧
    after (start few8 []) 0x0893 (fun t => t.fault) = some (some (.badRegister 0 .ra 8)) ∧
    after (start few8 []) 0x0193 (fun t => t.fault) = some (some (.badRegister 0 .rb 9)) ∧
    after (start { few8 with randMode := .bound } []) 0x58FF (fun t => t.fault) = some (some (.badRegister 0 .ra 8)) := by
  decide
/-- A don't-care `rb` above the file raises nothing. -/
theorem test_unused_rb : after (start few8 []) 0x01F5 (fun t => (t.fault, t.readReg 7)) = some (none, 1) := by decide
theorem test_stopped :
    faultedBy (step { start arch8 [] with fault := some (.addressFault 1) }) (.stopped (.addressFault 1)) ∧
    refusedBy (step (start { arch8 with C := 3 } [])) .illFormedDescriptor ∧
    refusedBy (exec (.jal 4) (start arch8 [])) (.notInVariant .jal) ∧
    refusedBy (exec (.cmp 1 0) (start arch16 [])) (.notInVariant .cmp) := by decide
/-- The five codes and names of 60_exceptions.md R200. -/
theorem test_record_codes : (FaultRecord.addressFault 3).code = 1 ∧ (FaultRecord.unrecognizedInstruction 0 1 2 none).code = 2 ∧
    (FaultRecord.ioAddressError 0 4 .load).code = 3 ∧ (FaultRecord.badRegister 0 .ra 9).code = 4 ∧
    (FaultRecord.randBound 7 (-1)).code = 5 ∧ (FaultRecord.randBound 7 (-1)).name = "RandBound" ∧
    (FaultRecord.addressFault 3).p = 3 := by decide

/-! ### The host's operations (L1.3, L1.7, L2.10, L2.11) -/

theorem test_set_buttons :
    ((State.create arch8).hostSetButtons ['0', '1', '0', '1']).2.buttons = [false, true, false, true] ∧
    ((State.create arch8).hostSetButtons ['0', '1']) = (.validationError, State.create arch8) ∧
    ((State.create arch8).hostSetButtons ['0', '1', '0', '2']).1 = .validationError := by
  simp [State.hostSetButtons, State.create, arch8]
theorem test_load : ((start arch8 [(1, 5)] 4).hostLoad (.tokens [some 0x1105, some 0x2FFF])) =
      (.ok, { State.create arch8 with is := [0x1105, 0x2FFF] }) ∧
    ((start arch8 [(1, 5)]).hostLoad (.tokens [some 0x1105, none])) = (.loadError, start arch8 [(1, 5)]) ∧
    ((start arch8 []).hostLoad (.tokens [some 0x10005])).1 = .loadError := by decide
theorem test_step_n_aborts : (State.hostStepN 3 { State.create arch8 with is := [0x1105] }).1 = .faulted (.addressFault 1) ∧
    (State.hostStepN 3 { State.create arch8 with is := [0x1105] }).2.readReg 1 = 5 ∧
    (State.hostStepN 0 { State.create arch8 with is := [0x1105] }).2.pc = 0 := by decide
/-- At the target already, run_until still steps. -/
theorem test_run_until : (State.hostRunUntil 0 1 { State.create arch8 with is := [0x1105] }).1 = .notFinished ∧
    (State.hostRunUntil 1 1 { State.create arch8 with is := [0x1105] }).1 = .ok ∧
    (State.hostRunUntil 7 1 { start arch8 [] 7 with is := List.replicate 7 0 ++ [0x2FFF] }).1 = .ok := by decide
theorem test_reset : (State.hostReset { start arch16 [(2, 9)] 4 with mem := [(300, 2)], is := [7], fault := some (.addressFault 4) })
    = (.ok, { State.create arch16 with is := [7] }) ∧ (State.create arch16).x.take 3 = [0, 1, 0] := by decide
theorem test_watch_snapshot : (State.hostWatch 1 5 9 { State.create arch8 with is := [0x1105] }).2.readReg 1 = 5 ∧
    (State.create arch16).snapshot.x.take 3 = [0, 1, 0] ∧ Reply.ok.phase = .idle ∧ Reply.notFinished.phase = .running := by
  decide

/-- R247: Idle at creation, Running once started, no second run beside it, Idle by reset. -/
theorem test_run_controller : (RunController.create arch8).phase = .idle ∧
    ((RunController.create arch8).start (.runUntil 7)).map RunController.phase = some .running ∧
    (RunController.mk (State.create arch8) (some (.runUntil 7))).start (.stepN 1) = none ∧
    (RunController.mk (start arch8 [] 4) (some (.runUntil 7))).reset = (.ok, RunController.create arch8) := by decide

/-! ### Where the opcode table's words go -/

theorem test_table_words : decodeTableWord 16 0x0121 = some (.sub 1 2) ∧ decodeTableWord 16 0xCE00 = some (.jr 14 0) ∧
    decodeTableWord 16 0xFFFF = none := by decide
theorem test_with_fetch_word : ends (step (State.reset.withFetchWord 16 0x1105)) (fun t => t.readReg 1) = some 5 ∧
    ends (step (State.reset.withFetchWord 16 0xB004)) (fun t => (t.readReg 14, t.pc)) = some (1, 4) ∧
    (start arch8 [(1, 7)] 3).withFetchWord 16 0x1105 = { start arch8 [(1, 7)] 3 with is := [0, 0, 0, 0x1105] } := by
  decide

/-! ### Memory keeps its canonical form -/

theorem test_memory_write : Memory.write [(100, 5), (200, 7)] 150 6 = [(100, 5), (150, 6), (200, 7)] ∧
    Memory.write [(100, 5), (200, 7)] 200 0 = [(100, 5)] ∧ Memory.write [(100, 5)] 100 8 = [(100, 8)] ∧
    Memory.write [(100, 5)] 99 0 = [(100, 5)] := by decide

/-! ### Witnesses: for every statement with hypotheses, a state and operands that meet them, and one for each clause -/

/-- ARCH8: pressed buttons, a data-memory cell, registers at the edges of the I/O window, one word at `pc`. -/
def w8 : State :=
  { start arch8 [(1, 3), (2, 4), (3, 99), (4, 100), (5, 255), (6, 200), (15, 200)] 0 with
    mem := [(100, 5)], buttons := [true, false, true, true], is := [0x0213, 0x6000] }
/-- ARCH16, in the middle of its store. -/
def w16 : State := { start arch16 [(2, 7), (3, 255), (4, 256), (5, 3), (14, 3)] 2 with is := [0x5207, 0x5303, 0xB004, 0xA003] }
/-- ARCH8 with a store gap, `x[3]` its first and `x[4]` its last address, `x[5]` the first data-memory cell. -/
def wGap : State := start gap8 [(2, 9), (3, 100), (4, 119), (5, 120)]
/-- Eight registers under four-bit fields, at a word that uses `rb = 9`. -/
def wFew : State := { start few8 [] with is := [0x0193] }
/-- ARCH8 under `drop`. -/
def wDrop : State := start drop8 [(3, 200), (15, 200)]
/-- A block stopped by a fault. -/
def wStopped : State := { w8 with fault := some (.addressFault 7) }

theorem w8_inv : w8.Inv := by constructor <;> decide
theorem w16_inv : w16.Inv := by constructor <;> decide
theorem wGap_inv : wGap.Inv := by constructor <;> decide
theorem wFew_inv : wFew.Inv := by constructor <;> decide
theorem wDrop_inv : wDrop.Inv := by constructor <;> decide
theorem wLinkC_inv : (start linkC16 [(15, 9)] 2).Inv := by constructor <;> decide
theorem wStopped_inv : wStopped.Inv := by constructor <;> decide

/-- The raw values on either side of the sign, the narrowest width, and a word of each instruction the law names. -/
theorem witness_SignedImmediateLaw : (1 ≤ 8 ∧ 127 < 2 ^ 8 ∧ 127 < 2 ^ (8 - 1)) ∧ (128 < 2 ^ 8 ∧ 2 ^ (8 - 1) ≤ 128) ∧
    (1 ≤ 1 ∧ 1 < 2 ^ 1 ∧ 2 ^ (1 - 1) ≤ 1) ∧ (decode arch8 0x1480).fmt = .I ∧
    decodeInstr arch8 0x1480 = some (.li 4 (-128)) ∧ decodeInstr arch8 0x2F7F = some (.beq 15 127) ∧
    decodeInstr arch8 0x31FD = some (.bne 1 (-3)) ∧ decodeInstr arch8 0x4102 = some (.bgt 1 2) := by decide
/-- A word of each format, of R both with and without a function code. -/
theorem witness_DecodedFieldsOfFormat : (decode arch8 0x0ABF).fmt = .R ∧ (decode arch16 0x2F3A).fmt = .R ∧
    (decode arch8 0x1480).fmt = .I ∧ (decode arch16 0xAFFF).fmt = .J ∧ (decode arch8 0x6123).fmt = .U := by decide
theorem witness_DecodeOfEncode : arch8.wf ∧ arch16.wf ∧ Instr.wf arch8 (.cmp 15 15) ∧ Instr.wf arch8 (.rand 0 (-128)) ∧
    Instr.wf arch16 (.beq 15 127) ∧ Instr.wf arch16 (.j 4095) ∧ Instr.wf arch16 (.jr 15 0) := by decide

/-- A set bit of a 16-bit word is one of its sixteen. -/
theorem bit_below {word b : Nat} (hw : word < 2 ^ 16) (h : word.testBit b = true) : b < 16 := by
  by_contra hb
  rw [Nat.testBit_lt_two_pow (Nat.lt_of_lt_of_le hw (Nat.pow_le_pow_right (by omega) (by omega)))] at h
  cases h

theorem witness_EncodeOfDecode : arch8.wf = true ∧ decodeInstr arch8 0x03A5 = some (.cmp 3 10) ∧
    ∀ b, Nat.testBit 0x03A5 b = true → ∃ f ∈ arch8.fieldsFor (fieldOf 0x03A5 arch8.op), f.lo ≤ b ∧ b < f.lo + f.w := by
  have h : ∀ b < 16, ∃ f ∈ arch8.fieldsFor (fieldOf 0x03A5 arch8.op), f.lo ≤ b ∧ b < f.lo + f.w := by decide
  exact ⟨by decide, by decide, fun b hb => h b (bit_below (by decide) hb)⟩
/-- 0x2F30 and 0x2F3A of ARCH16 differ in bits 3 to 0, which lie in no field of the R-format. -/
theorem witness_DontCareBitsIgnored : ∀ f ∈ arch16.fieldsFor (fieldOf 0x2F30 arch16.op), ∀ b, f.lo ≤ b → b < f.lo + f.w →
    Nat.testBit 0x2F3A b = Nat.testBit 0x2F30 b := by
  have h : ∀ f ∈ arch16.fieldsFor (fieldOf 0x2F30 arch16.op), f.lo + f.w ≤ 16 ∧ ∀ b < 16, f.lo ≤ b → b < f.lo + f.w →
      Nat.testBit 0x2F3A b = Nat.testBit 0x2F30 b := by decide
  exact fun f hf b h1 h2 => (h f hf).2 b (by have := (h f hf).1; omega) h1 h2
theorem witness_DispatchedWordHasInstruction : arch8.wf ∧ dispatch arch8 (decode arch8 0x03A5) = some .cmp ∧
    dispatch arch8 (decode arch8 0x0006) = none ∧ dispatch arch16 (decode arch16 0xB004) = some .jal := by decide
theorem witness_ReferenceRegistersInRange : decodeInstr arch8 0x0FF0 = some (.add 15 15) ∧
    Instr.usedRa (.add 15 15) = some 15 ∧ Instr.usedRb (.add 15 15) = some 15 ∧
    decodeInstr arch16 0xCE7F = some (.jr 14 7) ∧ Instr.usedRa (.jr 14 7) = some 14 := by decide

theorem witness_StepRunsDecodedInstruction : w16.mayStep ∧ 0 ≤ w16.pc ∧ w16.is[w16.pc.toNat]? = some 0xB004 ∧
    decodeInstr w16.arch 0xB004 = some (.jal 4) := by unfold State.mayStep; decide
/-- `pc` at −1, at the last word, and one past it. -/
theorem witness_AddressFaultExactlyOutsideStore : { w8 with pc := -1 }.mayStep ∧ { w8 with pc := 1 }.mayStep ∧
    { w8 with pc := 1 }.fetch = some 0x6000 ∧ { w8 with pc := 2 }.fetch = none ∧
    ends (step { w8 with pc := 2 }) (fun t => t.fault) = some (some (.addressFault 2)) ∧
    ends (step { w8 with pc := -1 }) (fun t => t.fault) = some (some (.addressFault (-1))) := by
  unfold State.mayStep; decide
theorem witness_UnrecognizedWordPolicy : { w8 with pc := 1 }.mayStep ∧ { w8 with pc := 1 }.fetch = some 0x6000 ∧
    decodeInstr arch8 0x6000 = none ∧ w8.arch.unrecognized = .fault ∧
    { w8 with pc := 1, arch := nop8 }.mayStep ∧ nop8.unrecognized = .nop ∧ decodeInstr nop8 0x6000 = none := by
  unfold State.mayStep; decide
theorem witness_StoppedBlockHasNoStep : wStopped.arch.wf = true ∧ wStopped.fault = some (.addressFault 7) ∧
    (wStopped.hostLoad (.tokens [some 1])).1 = .ok ∧ (wStopped.hostLoad (.tokens [none])).1 = .loadError := by decide
theorem witness_IllFormedDescriptorRefused : (start { arch8 with C := 3 } []).arch.wf = false := by decide
/-- Each of the five faults is raised by some step. -/
theorem witness_FaultRaisedExactlyForCause : { w8 with pc := 9 }.mayStep ∧ w16.mayStep ∧ wFew.mayStep ∧
    ends (step { w8 with pc := 9 }) (fun t => t.fault) = some (some (.addressFault 9)) ∧
    ends (step { w8 with pc := 1 }) (fun t => t.fault) = some (some (.unrecognizedInstruction 1 0x6000 6 none)) ∧
    ends (step { w8 with is := [0x0223] }) (fun t => t.fault) = some (some (.ioAddressError 0 4 .load)) ∧
    ends (step wFew) (fun t => t.fault) = some (some (.badRegister 0 .rb 9)) ∧
    ends (step { w16 with is := [0, 0, 0x92FF] }) (fun t => t.fault) = some (some (.randBound 2 (-1))) := by
  unfold State.mayStep; decide
theorem witness_FaultsArePrecise : (∃ t, step { w8 with pc := 9 } = .next t ∧ t.fault ≠ none) ∧
    ∃ t, exec (.lw 2 2) w8 = .next t ∧ t.fault ≠ w8.fault :=
  ⟨⟨{ w8 with pc := 9, fault := some (.addressFault 9) }, rfl, by decide⟩,
    { w8 with fault := some (.ioAddressError 0 4 .load) }, rfl, by decide⟩
theorem witness_BadRegisterTaken : (Instr.usedRa (.add 8 0) = some 8 ∧ few8.R ≤ 8) ∧
    (Instr.usedRa (.sw 7 8) = some 7 ∧ 7 < few8.R ∧ Instr.usedRb (.sw 7 8) = some 8 ∧ few8.R ≤ 8) := by decide
theorem witness_BlockAlwaysStepsWhenItMay : w8.Inv ∧ w8.fault = none ∧ wFew.Inv ∧ wFew.fault = none :=
  ⟨w8_inv, rfl, wFew_inv, rfl⟩

/-- A step that keeps `pc` from being negative, and the taken branch that makes it so. -/
theorem witness_StepKeepsInvariants : w8.Inv ∧ { w8 with is := [0x2F80] }.Inv ∧
    ends (step { w8 with is := [0x2F80] }) (fun t => t.pc) = some (-127) ∧ ends (step w16) (fun t => t.pc) = some 4 :=
  ⟨w8_inv, by constructor <;> decide, by decide, by decide⟩
theorem witness_CreationMeetsInvariants : arch8.wf ∧ arch16.wf ∧ gap8.wf := by decide
theorem witness_HostOperationsKeepInvariants : w16.Inv ∧ (w16.hostLoad (.tokens [some 1])).1 = .ok ∧
    (State.hostStepN 1 w16).1 = .ok := ⟨w16_inv, by decide, by decide⟩
/-- A step that writes a register; a store to the last display cell (`x[3] = M*M − 1`) and one to the first data-memory cell
(`x[4] = M*M = T`); and one in a store gap, `x[3] = M*M < T`. -/
theorem witness_OneWritePerStep : w8.Inv ∧ w8.current = some (.lw 2 1) ∧ ends (step w8) (fun t => t.readReg 2) = some 1 ∧
    { w8 with is := [0x0234] }.Inv ∧ { w8 with is := [0x0234] }.current = some (.sw 2 3) ∧
    w8.effectiveAddress 3 + 1 = w8.arch.M * w8.arch.M ∧
    ends (step { w8 with is := [0x0234] }) (fun t => (t.displayCell 9 9, t.mem)) = some (4, [(100, 5)]) ∧
    { w8 with is := [0x0244] }.Inv ∧ w8.effectiveAddress 4 = w8.arch.M * w8.arch.M ∧
    ends (step { w8 with is := [0x0244] }) (fun t => (t.mem, t.displayCell 9 9)) = some ([(100, 4)], 0) ∧
    { wGap with is := [0x0234] }.Inv ∧ wGap.effectiveAddress 3 = wGap.arch.M * wGap.arch.M ∧
    ends (step { wGap with is := [0x0234] }) (fun t => (t.mem, t.fault.isSome)) = some ([], true) := by
  refine ⟨w8_inv, ?_, ?_, ?_, ?_, ?_, ?_, ?_, ?_, ?_, ?_, ?_, ?_⟩ <;> first | decide | (constructor <;> decide)
/-- Every clause: a plain instruction, branches taken and not, j, jal, jr, a load of words, a failed one, a fault. -/
theorem witness_ProgramCounterMoves : ends (step w8) (fun t => (t.pc, t.fault)) = some (1, none) ∧
    ends (step { w8 with is := [0x26FE] }) (fun t => (t.pc, t.fault)) = some (-1, none) ∧
    ends (step { w8 with is := [0x2105] }) (fun t => (t.pc, t.fault)) = some (1, none) ∧
    ends (step { w8 with is := [0x3105] }) (fun t => (t.pc, t.fault)) = some (6, none) ∧
    ends (step { w8 with is := [0x4505] }) (fun t => (t.pc, t.fault)) = some (6, none) ∧
    ends (step { w16 with pc := 3 }) (fun t => (t.pc, t.fault)) = some (3, none) ∧
    ends (step w16) (fun t => (t.pc, t.fault)) = some (4, none) ∧
    ends (step { w16 with is := [0, 0, 0xC400] }) (fun t => (t.pc, t.fault)) = some (256, none) ∧
    (w16.hostLoad (.tokens [some 7])).1 = .ok ∧ (w16.hostLoad .missing).1 = .loadError ∧
    ends (step { w8 with is := [0x0223] }) (fun t => (t.pc, t.fault.isSome)) = some (0, true) := by decide
theorem witness_RunsKeepStoreAndLatches : (ends (step w8) fun t => t.pc) = some 1 ∧ (State.hostStepN 1 w16).1 = .ok ∧
    (State.hostRunUntil 4 3 w16).1 = .ok := by decide
theorem witness_DisplayNeverRead : (ends (step { w8 with is := [0x0234] }) fun t => t.displayCell 9 9) = some 4 ∧
    ends (step { w8 with is := [0x0234], display := [] }) (fun t => t.pc) = some 1 := by decide
theorem witness_ReservedRegistersConstant : w16.arch.reserved.lookup 0 = some 0 ∧ w16.arch.reserved.lookup 1 = some 1 ∧
    ends (step { w16 with is := [0, 0, 0x5109] }) (fun t => t.readReg 1) = some 1 := by decide
theorem witness_OnlyCmpWritesCUnderDrop : wDrop.Inv ∧ wDrop.arch.cExplicitWrite = .drop ∧
    ends (exec (.li 15 7) wDrop) (fun t => t.readReg 15) = some 200 ∧ (.li 15 7 : Instr).operation ≠ .cmp ∧
    ends (exec (.cmp 3 0) wDrop) (fun t => t.readReg 15) = some 1 ∧ 3 < wDrop.arch.R :=
  ⟨wDrop_inv, rfl, by decide, by decide, by decide, by decide⟩

/-- The first and the last register; a destination that is also a source; a dropped write. -/
theorem witness_AddResult : w8.x.length = w8.arch.R ∧ 0 < w8.arch.R ∧ 15 < w8.arch.R ∧ dropsWrite w8.arch 15 = false ∧
    w16.x.length = w16.arch.R ∧ dropsWrite w16.arch 1 = true := by decide
theorem witness_SubResult : w8.x.length = w8.arch.R ∧ 0 < w8.arch.R ∧ 15 < w8.arch.R ∧ dropsWrite drop8 15 = true ∧
    wDrop.x.length = wDrop.arch.R := by decide
theorem witness_ArithmeticNeedsNoSignedness : 1 ≤ 8 ∧ 255 < 2 ^ 8 ∧ 128 < 2 ^ 8 := by decide
theorem witness_LiResult : w8.x.length = w8.arch.R ∧ 15 < w8.arch.R ∧ w16.x.length = w16.arch.R ∧ 0 < w16.arch.R := by decide
theorem witness_MovResult : w8.Inv ∧ 15 < w8.arch.R ∧ 0 < w8.arch.R := ⟨w8_inv, by decide, by decide⟩
/-- `mask`; `bound` with the least immediate that draws; `none`. -/
theorem witness_RandResult : (w8.x.length = w8.arch.R ∧ 2 < w8.arch.R ∧ (w8.arch.randMode = .bound → (0 : Int) ≤ -1)) ∧
    (w16.x.length = w16.arch.R ∧ 2 < w16.arch.R ∧ w16.arch.randMode = .bound ∧ (0 : Int) ≤ 0) ∧
    free8.randMode = .none ∧ (start free8 []).x.length = free8.R := by decide
/-- The edge of `bound`: 0 draws, −1 faults; and a value of each mode's set. -/
theorem witness_RandAdmitsExactlyItsSet : 2 < w16.arch.R ∧ w16.arch.randMode = .bound ∧ (0 : Int) ≤ 0 ∧ (-1 : Int) < 0 ∧
    drawnValue arch16 0 9 = some 0 ∧ drawnValue arch8 (-128) 255 = some 128 ∧ drawnValue free8 0 255 = some 255 := by decide
/-- Addresses `B − 1`, `B`, `T − 1`, `T`. -/
theorem witness_MemReadDecodesAddress : w8.Inv ∧ w8.buttons[3]? = some true ∧ (w8.arch.B ≤ 4 ∧ 4 < w8.arch.T) ∧
    (w8.arch.B ≤ 99 ∧ 99 < w8.arch.T) ∧ w8.arch.T ≤ 100 := ⟨w8_inv, by decide, by decide, by decide, by decide⟩
/-- `x[1] = B − 1`, `x[4] = T`, `x[5]` the last cell. -/
theorem witness_LwResult : w8.Inv ∧ w8.readReg 1 = 3 ∧ 3 < w8.arch.B ∧ w8.arch.T ≤ w8.readReg 4 ∧ w8.readReg 5 = 255 ∧
    w8.arch.T ≤ w8.readReg 5 ∧ 5 < w8.arch.R := ⟨w8_inv, by decide, by decide, by decide, by decide, by decide, by decide⟩
/-- `x[3] = M*M − 1`, `x[4] = T`. -/
theorem witness_SwResult : w8.Inv ∧ w8.readReg 3 < w8.arch.M * w8.arch.M ∧ w8.readReg 3 + 1 = w8.arch.M * w8.arch.M ∧
    w8.arch.T ≤ w8.readReg 4 ∧ 4 < w8.arch.R := ⟨w8_inv, by decide, by decide, by decide, by decide⟩
/-- Loads at `B` and `T − 1`, stores at `M*M` and `T − 1`. -/
theorem witness_IoGapAccessFaults : (w8.readReg 2 = w8.arch.B ∧ w8.readReg 2 < w8.arch.T) ∧
    (w8.readReg 3 + 1 = w8.arch.T ∧ w8.arch.B ≤ w8.readReg 3) ∧
    (wGap.readReg 3 = wGap.arch.M * wGap.arch.M ∧ wGap.readReg 3 < wGap.arch.T) ∧
    (wGap.readReg 4 + 1 = wGap.arch.T ∧ wGap.arch.M * wGap.arch.M ≤ wGap.readReg 4) ∧ 4 < wGap.arch.R := by decide
/-- ARCH8 at `sw r2, (r4)`, then `li r1, 5`, with `T`, the first cell's address, in two registers. -/
def wPair : State := { start arch8 [(2, 9), (4, 100), (6, 100)] with is := [0x0244, 0x1105] }
/-- Past the store. -/
def wPair1 : State := { wPair with pc := 1, mem := [(100, 9)] }
/-- Past the li. -/
def wPair2 : State := { wPair1 with pc := 2, x := wPair1.x.set 1 5 }

theorem wPair_between : State.runsWithoutStore 100 1 wPair1 wPair2 := by
  refine ⟨?_, _, rfl, rfl⟩
  rintro ⟨ra, rb, h, -, -⟩
  rw [show wPair1.current = some (.li 1 5) by decide] at h
  cases h

/-- ARCH8 after reset at `li r1, 100`, and past it. -/
def wFresh : State := { State.create arch8 with is := [0x1164] }
def wFresh1 : State := { wFresh with pc := 1, x := wFresh.x.set 1 100 }

theorem wFresh_run : State.runsWithoutStore (wFresh1.readReg 1) 1 wFresh.hostReset.2 wFresh1 := by
  refine ⟨?_, _, rfl, rfl⟩
  rintro ⟨ra, rb, h, -, -⟩
  rw [show wFresh.hostReset.2.current = some (.li 1 100) by decide] at h
  cases h

/-- A store, an instruction between, a load by the other register; a load with no store since reset. -/
theorem witness_LoadReturnsLastStore : (wPair.Inv ∧ 4 < wPair.arch.R ∧ wPair.arch.T ≤ wPair.readReg 4 ∧
      wPair.readReg 4 = 100 ∧ ends (exec (.sw 2 4) wPair) id = some wPair1 ∧ State.runsWithoutStore 100 1 wPair1 wPair2 ∧
      wPair2.readReg 6 = wPair.readReg 4 ∧ dropsWrite wPair.arch 3 = false ∧
      ends (exec (.lw 3 6) wPair2) (fun v => v.readReg 3) = some 9) ∧
    wFresh.Inv ∧ State.runsWithoutStore (wFresh1.readReg 1) 1 wFresh.hostReset.2 wFresh1 ∧ 3 < wFresh.arch.R ∧
    wFresh.arch.T ≤ wFresh1.readReg 1 ∧ dropsWrite wFresh.arch 3 = false := by
  refine ⟨⟨by constructor <;> decide, by decide, by decide, by decide, by decide, wPair_between, by decide, by decide,
    by decide⟩, by constructor <;> decide, wFresh_run, by decide, by decide, by decide⟩
theorem witness_CmpResult : w8.Inv ∧ 6 < w8.arch.R ∧ w8.arch.cmpRel = some .eq ∧ wDrop.Inv ∧ wDrop.arch.cmpRel = some .eq ∧
    ({ arch8 with cmpRel := some .gt } : Descriptor).wf ∧ ({ arch8 with cmpRel := some .ne } : Descriptor).wf :=
  ⟨w8_inv, by decide, rfl, wDrop_inv, rfl, by decide, by decide⟩
/-- Conditions that hold (`x[6] = x[C]`, `x[5] > x[C]`) and that do not. -/
theorem witness_BranchResult : 6 < w8.arch.R ∧ w8.readReg 6 = w8.readReg w8.arch.C ∧ w8.readReg 5 > w8.readReg w8.arch.C ∧
    w8.readReg 1 ≠ w8.readReg w8.arch.C ∧ ¬ w8.readReg 6 > w8.readReg w8.arch.C := by decide
theorem witness_SignedReadingDiffersOnTopBits : (1 ≤ 8 ∧ 255 < 2 ^ 8 ∧ 1 < 2 ^ 8 ∧ ¬ (255 < 2 ^ 7 ↔ 1 < 2 ^ 7)) ∧
    (127 < 2 ^ 8 ∧ (127 < 2 ^ 7 ↔ 1 < 2 ^ 7)) := by decide
theorem witness_JumpResult : 15 < w16.arch.R := by decide
theorem witness_JalResult : w16.Inv ∧ w16.arch.link = some 14 ∧ 14 ≠ w16.arch.C ∧
    (start linkC16 [(15, 9)] 2).Inv ∧ linkC16.link = some linkC16.C ∧ linkC16.cExplicitWrite = .drop :=
  ⟨w16_inv, rfl, by decide, wLinkC_inv, rfl, rfl⟩
/-- ARCH16 with its comparison register as its link register, written as any other. -/
def wLinkWrite : State := start { arch16 with link := some 15 } [] 65534
/-- `LINK` apart from `C`; and `LINK = C` under `write`, at the last address whose successor fits. -/
theorem witness_CallThenReturn : (w16.Inv ∧ w16.arch.link = some 14 ∧ 14 ≠ w16.arch.C ∧ 0 ≤ w16.pc ∧
      w16.pc + 1 < 2 ^ w16.arch.W) ∧
    wLinkWrite.Inv ∧ wLinkWrite.arch.link = some wLinkWrite.arch.C ∧ wLinkWrite.arch.cExplicitWrite = .write ∧
    0 ≤ wLinkWrite.pc ∧ wLinkWrite.pc + 1 < 2 ^ wLinkWrite.arch.W :=
  ⟨⟨w16_inv, rfl, by decide, by decide, by decide⟩, by constructor <;> decide, rfl, rfl, by decide, by decide⟩
theorem witness_IdiomsChangeNothing : w16.Inv ∧ { w16 with pc := 3 }.pc = ((3 : Nat) : Int) ∧ 15 < w16.arch.R ∧ w8.Inv :=
  ⟨w16_inv, rfl, by decide, w8_inv⟩
/-- All words good; a malformed token; a token one too large, and the largest that is not. -/
theorem witness_LoadIsAllOrNothing : ([some 0x1105, some 0xFFFF] = [0x1105, 0xFFFF].map some ∧
      ∀ w ∈ [0x1105, 0xFFFF], w < 2 ^ arch8.N) ∧
    (∃ token ∈ [some 1, (none : Option Nat)], ∀ w, token = some w → 2 ^ arch8.N ≤ w) ∧
    ∃ token ∈ [some 65536], ∀ w, token = some w → 2 ^ arch8.N ≤ w :=
  ⟨by decide, ⟨none, by simp, by simp⟩, ⟨some 65536, by simp, by simp [arch8]⟩⟩
theorem witness_SetButtonsSetsLatches : (['0', '1', '0', '1'].length = w8.arch.B ∧
      ∀ c ∈ ['0', '1', '0', '1'], c = '0' ∨ c = '1') ∧
    ['0', '1'].length ≠ w8.arch.B ∧ ∃ c ∈ ['0', '1', '0', '2'], c ≠ '0' ∧ c ≠ '1' := by
  refine ⟨⟨rfl, by simp⟩, by decide, ⟨'2', by simp, by decide⟩⟩
/-- A step without a fault, one that raises one, a stopped block, an ill-formed descriptor. -/
theorem witness_StepRequestAnswersStep : ends (step w8) (fun t => t.fault) = some none ∧ w8.hostStep.1 = .ok ∧
    ends (step { w8 with pc := 9 }) (fun t => t.fault) = some (some (.addressFault 9)) ∧
    faultedBy (step wStopped) (.stopped (.addressFault 7)) ∧
    refusedBy (step (start { arch8 with C := 3 } [])) .illFormedDescriptor := by decide
/-- Both phases; a load that succeeds and one that does not. -/
theorem witness_RunControllerPhases : (RunController.mk w8 none).phase = .idle ∧
    (RunController.mk w8 (some (.runUntil 3))).phase = .running ∧ (w8.hostLoad (.tokens [some 1])).1 = .ok ∧
    (w8.hostLoad .missing).1 = .loadError := by decide
/-- A run that has returned, and one that has not. -/
theorem witness_RunControllerRunsOperations : (State.hostRunUntil 3 3 { w16 with is := [0, 0, 0xB003, 0xA003] }).1 = .ok ∧
    (State.hostRunUntil 9 3 { w16 with is := [0, 0, 0xB003, 0xA003] }).1 = .notFinished ∧
    (RunController.mk w8 (some (.stepN 2))).phase = .running := by decide
/-- A run that ends in ok, and one that a fault aborts; a count of 0 in a stopped block (log 19) and one of 1. -/
theorem witness_StepNIsSequential : (State.hostStepN 1 w8).1 = .ok ∧ (State.hostStepN 2 w8).1 ≠ .ok ∧
    State.hostStepN 0 wStopped = (.ok, wStopped) ∧ State.hostStepN 1 wStopped = (.faulted (.addressFault 7), wStopped) := by
  decide
theorem witness_RunUntilStopsAtFirstHit : (State.hostRunUntil 3 3 { w16 with is := [0, 0, 0xB003, 0xA003] }).1 = .ok ∧
    (State.hostRunUntil 9 3 { w16 with is := [0, 0, 0xB003, 0xA003] }).1 = .notFinished := by decide

end Sys2Proof.Tests
end

section
/-!
Proofs of the statements about 10_state.md: where a fetch fails and AddressFault is raised (R40), and the one write of a step
(R48).
-/

namespace Sys2Proof.Machine

/-! ### Which faults an execution can raise -/

/-- A checked operation of two register fields that answers a next state raised BadRegister or answered it itself. -/
theorem checkRegs_badRegister_or {s t : State} {a b : Nat} {k : Host.Outcome State Fault Refusal}
    (h : checkRegs s a b k = .next t) : (∃ f v, t = s.raise (.badRegister s.pc f v)) ∨ k = .next t := by
  rcases checkReg_next h with rfl | ⟨-, h⟩
  · exact .inl ⟨_, _, rfl⟩
  · rcases checkReg_next h with rfl | ⟨-, h⟩
    · exact .inl ⟨_, _, rfl⟩
    · exact .inr h

/-- Codes 1 and 2 of R200 are raised by fetch and dispatch alone: the execution of an instruction leaves the run status or
records one of the codes 3 to 5. -/
theorem exec_fault {i : Instr} {s t : State} (h : exec i s = .next t) :
    t.fault = s.fault ∨ ∃ r, t.fault = some r ∧ 3 ≤ r.code := by
  have bad (f : RegField) (v : Nat) : 3 ≤ (FaultRecord.badRegister s.pc f v).code := by simp [FaultRecord.code]
  cases i with
  | add ra rb | sub ra rb | mov ra rb =>
    rcases checkRegs_badRegister_or h with ⟨f, v, rfl⟩ | h
    · exact .inr ⟨_, rfl, bad f v⟩
    · cases h; exact .inl (State.writeReg_fault ..)
  | li ra imm =>
    rcases checkReg_next h with rfl | ⟨-, h⟩
    · exact .inr ⟨_, rfl, bad ..⟩
    · cases h; exact .inl (State.writeReg_fault ..)
  | rand ra imm =>
    rcases checkReg_next h with rfl | ⟨-, h⟩
    · exact .inr ⟨_, rfl, bad ..⟩
    · unfold randWith at h
      split at h <;> cases h
      · exact .inr ⟨_, rfl, by simp [FaultRecord.code]⟩
      · exact .inl (State.writeReg_fault ..)
  | lw ra rb =>
    rcases checkRegs_badRegister_or h with ⟨f, v, rfl⟩ | h
    · exact .inr ⟨_, rfl, bad f v⟩
    · split at h <;> cases h
      · exact .inr ⟨_, rfl, by simp [FaultRecord.code]⟩
      · exact .inl (State.writeReg_fault ..)
  | sw ra rb =>
    rcases checkRegs_badRegister_or h with ⟨f, v, rfl⟩ | h
    · exact .inr ⟨_, rfl, bad f v⟩
    · split at h <;> cases h
      · exact .inr ⟨_, rfl, by simp [FaultRecord.code]⟩
      · next u hu =>
        obtain ⟨-, -, -, -, -, hf, -⟩ := State.memWrite_frame hu
        exact .inl hf
  | cmp ra rb =>
    rcases checkReg_next h with rfl | ⟨-, h⟩
    · exact .inr ⟨_, rfl, bad ..⟩
    · split at h <;> cases h
      exact .inl rfl
  | beq ra imm | bne ra imm | bgt ra imm | jr ra rb =>
    rcases checkReg_next h with rfl | ⟨-, h⟩
    · exact .inr ⟨_, rfl, bad ..⟩
    · cases h; exact .inl rfl
  | j tgt => cases h; exact .inl rfl
  | jal tgt =>
    simp only [exec, execJal] at h
    split at h <;> cases h
    exact .inl (State.writeReg_fault ..)

/-- An unrecognized word leaves the run status, or records UnrecognizedInstruction (R103). -/
theorem State.unrecognizedWord_fault (s : State) (word : Word) :
    (s.unrecognizedWord word).fault = s.fault ∨
    ∃ p w op funct, (s.unrecognizedWord word).fault = some (.unrecognizedInstruction p w op funct) := by
  unfold State.unrecognizedWord
  split
  · exact .inr ⟨_, _, _, _, rfl⟩
  · exact .inl rfl

/-! ### AddressFault -/

theorem step_of_fetch_none {s : State} (hs : s.mayStep) (hf : s.fetch = none) :
    step s = .next (s.raise (.addressFault s.pc)) := by
  rw [step_of_mayStep hs, State.cycle, hf]

/-- A step that records AddressFault had no word to fetch, and the record holds `pc`. -/
theorem step_addressFault {s t : State} {p : Int} (h : step s = .next t) (hf : t.fault = some (.addressFault p)) :
    s.fetch = none ∧ p = s.pc := by
  obtain ⟨-, hnone, hc⟩ := step_next h
  rcases cycle_next hc with ⟨hfetch, rfl⟩ | ⟨word, -, -, rfl⟩ | ⟨word, i, -, -, he⟩
  · exact ⟨hfetch, by simpa using hf.symm⟩
  · rcases s.unrecognizedWord_fault word with hk | ⟨_, _, _, _, hk⟩ <;> simp [hk, hnone] at hf
  · rcases exec_fault he with hk | ⟨r, hk, hcode⟩
    · simp [hk, hnone] at hf
    · obtain rfl := Option.some.inj (hk.symm.trans hf)
      exact absurd hcode (by simp [FaultRecord.code])

/-- Settles O10: by the inversion of one cycle, only its branch with no word fetched records AddressFault. -/
theorem addressFaultExactlyOutsideStore : Obligations.AddressFaultExactlyOutsideStore := by
  unfold Obligations.AddressFaultExactlyOutsideStore
  intro s
  refine ⟨fun word => State.fetch_eq_some, State.fetch_eq_none, fun hs => ⟨⟨?_, fun hpc => ?_⟩, ?_⟩⟩
  · rintro ⟨t, p, h, hf⟩
    exact State.fetch_eq_none.1 (step_addressFault h hf).1
  · exact ⟨_, s.pc, step_of_fetch_none hs (State.fetch_eq_none.2 hpc), rfl⟩
  · exact fun t p h hf => (step_addressFault h hf).2

/-! ### The one register a step writes -/

theorem State.readReg_setReg_ne (s : State) {i j : Nat} (h : j ≠ i) (v : Int) :
    (s.setReg i v).readReg j = s.readReg j := by
  simp [State.readReg, List.getD, List.getElem?_set_ne h.symm]

theorem State.readReg_writeReg_ne (s : State) {i j : Nat} (h : j ≠ i) (v : Int) :
    (s.writeReg i v).readReg j = s.readReg j := by
  unfold State.writeReg
  split
  · rfl
  · exact s.readReg_setReg_ne h v

/-- Every register but the destination of the instruction reads as before. -/
theorem Effect.readReg_of_ne_destination {s t : State} {i : Option Instr} (h : Effect s i t) {j : Nat}
    (hj : i.bind (Instr.destination s.arch) ≠ some j) : t.readReg j = s.readReg j := by
  have ne_of {d : Nat} (hd : i.bind (Instr.destination s.arch) = some d) : j ≠ d := by
    rintro rfl
    exact hj hd
  cases h with
  | raised r => rfl
  | wrote ra v hd => exact s.readReg_writeReg_ne (ne_of hd) v
  | drew ra v imm hi => exact s.countDraw.readReg_writeReg_ne (ne_of (by rw [hi]; rfl)) v
  | stored ra rb u hu =>
    obtain ⟨harch, -, hx, -⟩ := State.memWrite_frame hu
    exact State.readReg_congr harch hx j
  | compared ra rb b hi => exact s.readReg_setReg_ne (ne_of (by rw [hi]; rfl)) _
  | moved target => rfl
  | linked l tgt hi hl => exact s.readReg_writeReg_ne (ne_of (by rw [hi]; exact hl)) _

/-! ### The one cell a step writes -/

/-- Only a store changes the data memory or the display. -/
theorem Effect.sameData_or_stored {s t : State} {i : Option Instr} (h : Effect s i t) :
    (SameMemory s t ∧ SameDisplay s t) ∨
    ∃ ra rb u, i = some (.sw ra rb) ∧ s.memWrite (s.effectiveAddress rb) (s.readReg ra) = some u ∧ t = u.advance := by
  cases h with
  | stored ra rb u hu hi => exact .inr ⟨ra, rb, u, hi, hu, rfl⟩
  | _ => exact .inl ⟨fun a => by simp, fun row col => by simp [State.displayCell]⟩

/-- A write below `M*M` changes one display cell (R64). -/
theorem State.memWrite_display_frame {s u : State} (hI : s.Inv) {a v : Nat} (ha : a < s.arch.M * s.arch.M)
    (hu : s.memWrite a v = some u) :
    SameMemory s u ∧ ∀ row col, ¬ (row = a / s.arch.M ∧ col = a % s.arch.M) →
      u.displayCell row col = s.displayCell row col := by
  rcases s.memWrite_cases a v with ⟨-, he⟩ | ⟨hge, -⟩ | ⟨hge, -⟩
  · obtain rfl := Option.some.inj (he.symm.trans hu)
    obtain ⟨hrow, hcol⟩ := div_mod_lt ha
    refine ⟨fun b => rfl, fun row col hne => ?_⟩
    rw [State.displayCell_setDisplay hI hrow hcol, if_neg hne]
  · omega
  · omega

/-- A write from `M*M` up changes one data-memory cell (R64). -/
theorem State.memWrite_memory_frame {s u : State} (hI : s.Inv) {a v : Nat} (ha : s.arch.M * s.arch.M ≤ a)
    (hu : s.memWrite a v = some u) :
    SameDisplay s u ∧ ∀ b, b ≠ a → Memory.read u.mem b = Memory.read s.mem b := by
  rcases s.memWrite_cases a v with ⟨hlt, -⟩ | ⟨-, -, he⟩ | ⟨-, -, he⟩
  · omega
  · exact absurd (he.symm.trans hu) nofun
  · obtain rfl := Option.some.inj (he.symm.trans hu)
    refine ⟨fun row col => rfl, fun b hb => ?_⟩
    rw [Memory.read_write hI.memForm, if_neg hb]

/-- Settles O22: by the shapes of a step's next state; a store is the one shape that touches a cell. -/
theorem oneWritePerStep : Obligations.OneWritePerStep := by
  unfold Obligations.OneWritePerStep
  intro s t hI h
  have he := step_effect h
  refine ⟨fun j hj => he.readReg_of_ne_destination hj, fun ra rb hsw => ?_, fun hno => ?_, he.keeps⟩
  · rcases he.sameData_or_stored with ⟨hm, hd⟩ | ⟨ra', rb', u, hi, hu, rfl⟩
    · exact ⟨fun _ => ⟨hm, fun row col _ => hd row col⟩, fun _ => ⟨hd, fun a _ => hm a⟩⟩
    · obtain ⟨rfl, rfl⟩ := Instr.sw.inj (Option.some.inj (hsw.symm.trans hi))
      exact ⟨fun ha => State.memWrite_display_frame (u := u) hI ha hu,
        fun ha => State.memWrite_memory_frame (u := u) hI ha hu⟩
  · rcases he.sameData_or_stored with hsame | ⟨ra, rb, -, hi, -⟩
    · exact hsame
    · exact absurd hi (hno ra rb)

end Sys2Proof.Machine
end

section
/-!
Proofs of the statements about 20_memory.md: the read primitive of the data space (R63).
-/

namespace Sys2Proof.Machine

/-! ### The read primitive, one equation per address range -/

/-- A listed latch belongs to one of the `B` buttons. -/
theorem State.Inv.lt_B_of_latch {s : State} (hI : s.Inv) {a : Nat} {b : Bool} (hb : s.buttons[a]? = some b) :
    a < s.arch.B := by
  obtain ⟨ha, -⟩ := List.getElem?_eq_some_iff.1 hb
  exact hI.buttonCount ▸ ha

theorem State.button_of_latch {s : State} {a : Nat} {b : Bool} (hb : s.buttons[a]? = some b) :
    s.button a = if b then 1 else 0 := by
  rw [State.button, List.getD_eq_getElem?_getD, hb]
  cases b <;> rfl

theorem State.memRead_of_lt_B {s : State} {a : Nat} (ha : a < s.arch.B) : s.memRead a = some (s.button a) :=
  if_pos ha

theorem State.memRead_of_gap {s : State} {a : Nat} (hB : s.arch.B ≤ a) (hT : a < s.arch.T) : s.memRead a = none := by
  rw [State.memRead, if_neg (Nat.not_lt.2 hB), if_pos hT]

/-- From `T` on no button answers, as `B ≤ T` (R9 (e)). -/
theorem State.memRead_of_T_le {s : State} (hwf : s.arch.wf = true) {a : Nat} (hT : s.arch.T ≤ a) :
    s.memRead a = some (Memory.read s.mem a) := by
  obtain ⟨hBT, -, -⟩ := wf_io hwf
  rw [State.memRead, if_neg (Nat.not_lt.2 (hBT.trans hT)), if_neg (Nat.not_lt.2 hT)]

/-- Settles O35: one equation of the read for each of the three address ranges. -/
theorem memReadDecodesAddress : Obligations.MemReadDecodesAddress := by
  unfold Obligations.MemReadDecodesAddress
  intro s a hI
  refine ⟨fun b hb => ?_, State.memRead_of_gap, State.memRead_of_T_le hI.archWf⟩
  have ha : a < s.arch.B := hI.lt_B_of_latch hb
  exact ⟨ha, by rw [State.memRead_of_lt_B ha, State.button_of_latch hb]⟩

end Sys2Proof.Machine
end

section
/-!
Proofs of the statements about 30_encoding.md: the fields of a decoded record (R94 to R97) and the signed immediate (R98).
-/

namespace Sys2Proof

/-! ### The function codes of an opcode -/

theorem Descriptor.functFor_eq_some {D : Descriptor} {op : Nat} {fc : FunctCodes} :
    D.functFor op = some fc ↔ D.funct = some fc ∧ op = fc.rOpcode := by
  rw [Descriptor.functFor, Option.filter_eq_some_iff, beq_iff_eq]

theorem Descriptor.functFor_eq_none {D : Descriptor} {op : Nat} :
    D.functFor op = none ↔ ∀ fc, D.funct = some fc → op ≠ fc.rOpcode := by
  simp [Option.eq_none_iff_forall_ne_some, Descriptor.functFor_eq_some]

/-! ### The fields of a record -/

/-- A word's format is its opcode's (R93). -/
theorem decode_fmt (D : Descriptor) (word : Word) : (decode D word).fmt = D.formatOf (fieldOf word D.op) := by
  cases hf : D.formatOf (fieldOf word D.op) with
  | R => rw [decode_R hf]
  | I => rw [decode_I hf]
  | J => rw [decode_J hf]
  | U => rw [decode_U hf]

/-- Settles O3: by the record of each format; only the R-format's `funct` depends on the opcode. -/
theorem decodedFieldsOfFormat : Obligations.DecodedFieldsOfFormat := by
  unfold Obligations.DecodedFieldsOfFormat
  intro D word
  cases hf : D.formatOf (fieldOf word D.op) with
  | R =>
    rw [decode_R hf]
    refine ⟨rfl, rfl, rfl, rfl, rfl, fun fc hfc hop => ?_, fun hne => ?_⟩
    · exact congrArg (Option.map _) (Descriptor.functFor_eq_some.2 ⟨hfc, hop⟩)
    · exact congrArg (Option.map _) (Descriptor.functFor_eq_none.2 hne)
  | I => rw [decode_I hf]; exact ⟨rfl, rfl, rfl, rfl, rfl, rfl⟩
  | J => rw [decode_J hf]; exact ⟨rfl, rfl, rfl, rfl, rfl, rfl⟩
  | U => rw [decode_U hf]; exact ⟨rfl, rfl, rfl, rfl, rfl, rfl⟩

/-! ### The signed immediate -/

theorem sext_of_lt {k v : Nat} (h : v < 2 ^ (k - 1)) : sext k v = v := if_pos h

theorem sext_of_le {k v : Nat} (h : 2 ^ (k - 1) ≤ v) : sext k v = (v : Int) - 2 ^ k := if_neg (Nat.not_lt.2 h)

theorem decode_imm_of_fmt_I {D : Descriptor} {word : Word} (h : (decode D word).fmt = .I) :
    (decode D word).imm = some (sext D.iImm.w (fieldOf word D.iImm)) := by
  rw [decode_I ((decode_fmt D word).symm.trans h)]

/-- load-immediate and every branch hold the reconstructed immediate of their word as it is. -/
theorem decodeInstr_imm {D : Descriptor} {word : Word} {i : Instr} {ra : Nat} {imm : Int}
    (h : decodeInstr D word = some i) (hi : i = .li ra imm ∨ i = .beq ra imm ∨ i = .bne ra imm ∨ i = .bgt ra imm) :
    imm = sext D.iImm.w (fieldOf word D.iImm) := by
  obtain ⟨-, hrec⟩ := decodeInstr_some h
  rcases hi with rfl | rfl | rfl | rfl
  · exact (Instr.li.inj (regImm_fit hrec)).2
  · exact (Instr.beq.inj (regImm_fit hrec)).2
  · exact (Instr.bne.inj (regImm_fit hrec)).2
  · exact (Instr.bgt.inj (regImm_fit hrec)).2

/-- Settles O2: the two branches of the reconstruction and its range, then where the decoder puts its value. -/
theorem signedImmediateLaw : Obligations.SignedImmediateLaw := by
  unfold Obligations.SignedImmediateLaw
  refine ⟨fun k v hk hv => ⟨sext_of_lt, sext_of_le, sext_range hk hv⟩, fun D word => decode_imm_of_fmt_I, ?_⟩
  exact fun D word i ra imm => decodeInstr_imm

end Sys2Proof
end

section
/-!
Proofs of the statements about 70_reset_and_hazards.md: the host's button operation (R236).
-/

namespace Sys2Proof.Machine

/-! ### `set_buttons`, one equation per answer -/

theorem State.hostSetButtons_of_wellFormed {s : State} {cs : List Char} (hlen : cs.length = s.arch.B)
    (hbits : ∀ c ∈ cs, c = '0' ∨ c = '1') :
    s.hostSetButtons cs = (.ok, { s with buttons := cs.map fun c => c == '1' }) :=
  if_pos ⟨hlen, hbits⟩

theorem State.hostSetButtons_of_malformed {s : State} {cs : List Char}
    (h : cs.length ≠ s.arch.B ∨ ∃ c ∈ cs, c ≠ '0' ∧ c ≠ '1') : s.hostSetButtons cs = (.validationError, s) := by
  refine if_neg fun ⟨hlen, hbits⟩ => ?_
  obtain hne | ⟨c, hc, h0, h1⟩ := h
  · exact hne hlen
  · exact (hbits c hc).elim h0 h1

/-- A button whose latch was set from a character reads 1 exactly where the character is 1. -/
theorem State.button_of_latch_eq_one {s : State} {j : Nat} {c : Char} (hb : s.buttons[j]? = some (c == '1')) :
    s.button j = if c = '1' then 1 else 0 := by
  simp only [State.button_of_latch hb, beq_iff_eq]

/-- Settles O49: by the two equations of the operation; latch `j` of the new state is set from character `j`. -/
theorem setButtonsSetsLatches : Obligations.SetButtonsSetsLatches := by
  unfold Obligations.SetButtonsSetsLatches
  refine fun s cs => ⟨fun hlen hbits => ?_, State.hostSetButtons_of_malformed⟩
  refine ⟨_, State.hostSetButtons_of_wellFormed hlen hbits, rfl, (List.length_map _).trans hlen, fun j c hc => ?_⟩
  exact State.button_of_latch_eq_one (List.getElem?_map.trans (congrArg (Option.map _) hc))

end Sys2Proof.Machine
end

section
/-!
Proofs of the statements about 30_encoding.md: words as packed fields, the two laws of the encoder (R111), don't-care
bits (R100), dispatch (R102) and the reference descriptors (R104, R105).
-/

namespace Sys2Proof

/-! ### Words packed from field values -/

/-- A word with the given values in the given fields and every other bit 0. -/
def pack (l : List (Field × Nat)) : Word := l.foldr (fun p word => place p.1 p.2 ||| word) 0

@[simp] theorem pack_nil : pack [] = 0 := rfl
@[simp] theorem pack_cons (p : Field × Nat) (l : List (Field × Nat)) : pack (p :: l) = place p.1 p.2 ||| pack l := rfl

theorem pack_append (l m : List (Field × Nat)) : pack (l ++ m) = pack l ||| pack m := by
  induction l with
  | nil => simp
  | cons p l ih => simp [ih, Nat.or_assoc]

theorem testBit_pack {l : List (Field × Nat)} {b : Nat} :
    (pack l).testBit b = true ↔ ∃ p ∈ l, p.1.lo ≤ b ∧ p.2.testBit (b - p.1.lo) = true := by
  induction l with
  | nil => simp
  | cons p l ih => simp [testBit_place, ih]

theorem place_lt {N : Nat} {f : Field} {v : Nat} (hf : f.lo + f.w ≤ N) (hv : v < 2 ^ f.w) : place f v < 2 ^ N := by
  rw [place, Nat.shiftLeft_eq]
  calc v * 2 ^ f.lo < 2 ^ f.w * 2 ^ f.lo := Nat.mul_lt_mul_of_pos_right hv (by positivity)
    _ = 2 ^ (f.lo + f.w) := by rw [← Nat.pow_add, Nat.add_comm]
    _ ≤ 2 ^ N := Nat.pow_le_pow_right (by omega) hf

theorem pack_lt {N : Nat} {l : List (Field × Nat)} (hf : ∀ p ∈ l, p.1.lo + p.1.w ≤ N) (hv : ∀ p ∈ l, p.2 < 2 ^ p.1.w) :
    pack l < 2 ^ N := by
  induction l with
  | nil => simp
  | cons p l ih =>
    rw [List.forall_mem_cons] at hf hv
    exact Nat.or_lt_two_pow (place_lt hf.1 hv.1) (ih hf.2 hv.2)

/-- A set bit of a value that fits its field lies below the field's width. -/
theorem lt_width_of_testBit {v w b : Nat} (hv : v < 2 ^ w) (hb : v.testBit b = true) : b < w := by
  by_contra hle
  rw [Nat.testBit_lt_two_pow (hv.trans_le (Nat.pow_le_pow_right (by omega) (Nat.not_lt.1 hle)))] at hb
  cases hb

theorem Field.disjoint_comm (f g : Field) : f.disjoint g = g.disjoint f := Bool.or_comm ..

/-- Reading back a field of a packed word whose fields are pairwise disjoint. -/
theorem fieldOf_pack {l : List (Field × Nat)} (hd : l.Pairwise fun p q => p.1.disjoint q.1 = true)
    (hv : ∀ p ∈ l, p.2 < 2 ^ p.1.w) {p : Field × Nat} (hp : p ∈ l) : fieldOf (pack l) p.1 = p.2 := by
  have hdisj {q : Field × Nat} (hq : q ∈ l) (hne : q ≠ p) : q.1.disjoint p.1 = true :=
    have : Std.Symm fun p q : Field × Nat => p.1.disjoint q.1 = true := ⟨fun p q h => by rwa [Field.disjoint_comm]⟩
    hd.forall hq hp hne
  refine Nat.eq_of_testBit_eq fun b => Bool.eq_iff_iff.2 ?_
  rw [testBit_fieldOf, Bool.and_eq_true, decide_eq_true_eq, testBit_pack]
  constructor
  · rintro ⟨hb, q, hq, hlo, hbit⟩
    by_cases hqp : q = p
    · rwa [hqp, Nat.add_sub_cancel_left] at hbit
    · have hw := lt_width_of_testBit (hv q hq) hbit
      have hsep := hdisj hq hqp
      simp only [Field.disjoint, Bool.or_eq_true, decide_eq_true_eq] at hsep
      omega
  · intro hbit
    exact ⟨lt_width_of_testBit (hv p hp) hbit, p, hp, Nat.le_add_right .., by rwa [Nat.add_sub_cancel_left]⟩

/-- A word is packed from its own fields where it has no set bit outside them. -/
theorem pack_fieldOf {word : Word} {fs : List Field}
    (h : ∀ b, word.testBit b = true → ∃ f ∈ fs, f.lo ≤ b ∧ b < f.lo + f.w) :
    pack (fs.map fun f => (f, fieldOf word f)) = word := by
  refine Nat.eq_of_testBit_eq fun b => Bool.eq_iff_iff.2 ?_
  rw [testBit_pack]
  constructor
  · rintro ⟨p, hp, hlo, hbit⟩
    obtain ⟨f, -, rfl⟩ := List.mem_map.1 hp
    rw [testBit_fieldOf, Bool.and_eq_true, Nat.add_sub_cancel' hlo] at hbit
    exact hbit.2
  · intro hbit
    obtain ⟨f, hf, hlo, hhi⟩ := h b hbit
    refine ⟨_, List.mem_map_of_mem hf, hlo, ?_⟩
    rw [testBit_fieldOf, Nat.add_sub_cancel' hlo, hbit, Bool.and_true, decide_eq_true_eq]
    exact Nat.sub_lt_left_of_lt_add hlo hhi

/-! ### What a well-formed descriptor gives the codec -/

theorem Field.allDisjoint_iff {fs : List Field} :
    Field.allDisjoint fs = true ↔ fs.Pairwise fun f g => f.disjoint g = true := by
  induction fs with
  | nil => simp [Field.allDisjoint]
  | cons f fs ih => simp [Field.allDisjoint, ih]

/-- Every field that a word of a format may use (R94 to R96). -/
def Descriptor.formatFields (D : Descriptor) : Format → List Field
  | .R => [D.op, D.rRa, D.rRb] ++ D.functFields
  | .I => [D.op, D.iRa, D.iImm]
  | .J => [D.op] ++ D.jTgt.toList
  | .U => [D.op]

section
open Sys2Proof.Machine
variable {D : Descriptor} (h : D.wf = true)
include h

theorem wf_formatFields_disjoint (fmt : Format) : (D.formatFields fmt).Pairwise fun f g => f.disjoint g = true := by
  obtain ⟨-, -, hd, -⟩ := wf_parts h
  simp only [Descriptor.wfDisjoint, Bool.and_eq_true, Field.allDisjoint_iff] at hd
  obtain ⟨⟨hR, hI⟩, hJ⟩ := hd
  cases fmt with
  | R => exact hR
  | I => exact hI
  | J => exact hJ
  | U => exact List.pairwise_singleton ..

theorem wf_formatFields_fit {fmt : Format} {f : Field} (hf : f ∈ D.formatFields fmt) : 1 ≤ f.w ∧ f.lo + f.w ≤ D.N := by
  obtain ⟨-, hfields, -⟩ := wf_parts h
  rw [Descriptor.wfFields, List.all_eq_true] at hfields
  have hsub : D.formatFields fmt ⊆ [D.op, D.rRa, D.rRb, D.iRa, D.iImm] ++ D.functFields ++ D.jTgt.toList := by
    intro g hg
    cases fmt with
    | R | I | J | U =>
      simp only [Descriptor.formatFields, List.mem_append, List.mem_cons, List.not_mem_nil] at hg ⊢
      tauto
  simpa [Field.fits] using hfields f (hsub hf)

theorem wf_one_le_immWidth : 1 ≤ D.iImm.w := (wf_formatFields_fit (fmt := .I) h (by simp [Descriptor.formatFields])).1

theorem wf_opmap_parts : (D.opmap.map (·.1)).Nodup ∧ (∀ p ∈ D.opmap, p.1 < 2 ^ D.op.w) ∧ D.operations.Nodup := by
  obtain ⟨-, -, -, -, -, -, ho, -⟩ := wf_parts h
  simp only [Descriptor.wfOpmap, distinct, Bool.and_eq_true, decide_eq_true_eq, List.all_eq_true] at ho
  obtain ⟨⟨⟨hcodes, hlt⟩, hops⟩, -⟩ := ho
  exact ⟨hcodes, hlt, hops⟩

theorem wf_funct_parts {fc : FunctCodes} (hfc : D.funct = some fc) :
    (fc.ops.map (·.1)).Nodup ∧ (∀ p ∈ fc.ops, p.1 < 2 ^ fc.field.w) ∧ fc.rOpcode < 2 ^ D.op.w ∧
    D.opmap.lookup fc.rOpcode = none := by
  obtain ⟨-, -, -, -, -, -, ho, -⟩ := wf_parts h
  simp only [Descriptor.wfOpmap, hfc, Option.all_some, distinct, Bool.and_eq_true, decide_eq_true_eq, List.all_eq_true,
    Option.isNone_iff_eq_none] at ho
  obtain ⟨-, ⟨⟨hcodes, hlt⟩, hR⟩, hfree⟩ := ho
  exact ⟨hcodes, hlt, hR, hfree⟩

theorem wf_funct_format {fc : FunctCodes} (hfc : D.funct = some fc) {p : Nat × Operation} (hp : p ∈ fc.ops) :
    p.2.format = .R := by
  obtain ⟨-, -, -, -, -, -, -, hf⟩ := wf_parts h
  simp only [Descriptor.wfFormats, hfc, Option.all_some, Bool.and_eq_true, List.all_eq_true, beq_iff_eq] at hf
  exact hf.1 p hp

/-- A mapped operation finds in the descriptor what it needs (R9 (g)). -/
theorem wf_operation_needs {o : Operation} (ho : o ∈ D.operations) :
    (o.format = .J → D.jTgt.isSome) ∧ (o = .jal → D.link.isSome) ∧ (o = .cmp → D.cmpRel.isSome) := by
  obtain ⟨-, -, -, -, -, -, -, hf⟩ := wf_parts h
  simp only [Descriptor.wfFormats, Bool.and_eq_true, List.all_eq_true, Bool.or_eq_true, bne_iff_ne, ne_eq,
    ← imp_iff_not_or] at hf
  obtain ⟨⟨hJ, hjal⟩, hcmp⟩ := hf.2 o ho
  exact ⟨hJ, hjal, hcmp⟩

end

/-! ### The codes of an operation -/

/-- The code fields of an operation's words and their values (R102): an opcode of its own, or `R_OPCODE` and a function
code. -/
inductive Descriptor.CodesOf (D : Descriptor) (o : Operation) : List (Field × Nat) → Prop where
  | opcode (code : Nat) (hmem : (code, o) ∈ D.opmap) : CodesOf D o [(D.op, code)]
  | funct (fc : FunctCodes) (code : Nat) (hfc : D.funct = some fc) (hmem : (code, o) ∈ fc.ops) :
    CodesOf D o [(D.op, fc.rOpcode), (fc.field, code)]

theorem Descriptor.mem_operations_iff {D : Descriptor} {o : Operation} :
    o ∈ D.operations ↔ ∃ codes, D.CodesOf o codes := by
  constructor
  · intro ho
    obtain ⟨⟨code, _⟩, hmem, rfl⟩ := List.mem_map.1 ho
    rcases List.mem_append.1 hmem with hf | hop
    · cases hfc : D.funct with
      | none => simp [hfc] at hf
      | some fc => exact ⟨_, .funct fc code hfc (by simpa [hfc] using hf)⟩
    · exact ⟨_, .opcode code hop⟩
  · rintro ⟨_, ⟨code, hmem⟩ | ⟨fc, code, hfc, hmem⟩⟩
    · exact List.mem_map.2 ⟨_, List.mem_append_right _ hmem, rfl⟩
    · exact List.mem_map.2 ⟨(code, o), List.mem_append_left _ (by simpa [hfc] using hmem), rfl⟩

/-- In a list with each value once, a search by the value finds the pair that holds it. -/
theorem find?_snd_of_mem {l : List (Nat × Operation)} (hn : (l.map (·.2)).Nodup) {code : Nat} {o : Operation}
    (h : (code, o) ∈ l) : l.find? (fun p => p.2 == o) = some (code, o) := by
  have hsome : (l.find? fun p => p.2 == o).isSome := List.find?_isSome.2 ⟨(code, o), h, beq_self_eq_true o⟩
  obtain ⟨q, hq⟩ := Option.isSome_iff_exists.1 hsome
  have hqo : q.2 = o := by simpa using List.find?_some hq
  rw [hq, List.inj_on_of_nodup_map hn (List.mem_of_find?_eq_some hq) h hqo]

/-- The code part of the encoder packs the code fields. -/
theorem codeBits_eq {D : Descriptor} (h : D.wf = true) {o : Operation} {codes : List (Field × Nat)}
    (hc : D.CodesOf o codes) : codeBits D o = some (pack codes) := by
  obtain ⟨-, -, hops⟩ := wf_opmap_parts h
  rw [Descriptor.operations, List.map_append, List.nodup_append] at hops
  obtain ⟨hfn, hon, hdisj⟩ := hops
  cases hc with
  | opcode code hmem => simp [codeBits, find?_snd_of_mem hon hmem]
  | funct fc code hfc hmem =>
    simp only [hfc, Option.map_some, Option.getD_some] at hfn hdisj
    have hnone : D.opmap.find? (fun p => p.2 == o) = none := List.find?_eq_none.2 fun p hp he =>
      hdisj o (List.mem_map_of_mem hmem) p.2 (List.mem_map_of_mem hp) (beq_iff_eq.1 he).symm
    simp [codeBits, hnone, hfc, find?_snd_of_mem hfn hmem]

/-- The word holds the values in their fields. -/
def Holds (word : Word) (l : List (Field × Nat)) : Prop := ∀ p ∈ l, fieldOf word p.1 = p.2

@[simp] theorem holds_nil (word : Word) : Holds word [] := fun _ => nofun

@[simp] theorem holds_cons {word : Word} {p : Field × Nat} {l : List (Field × Nat)} :
    Holds word (p :: l) ↔ fieldOf word p.1 = p.2 ∧ Holds word l := List.forall_mem_cons

theorem holds_append {word : Word} {l m : List (Field × Nat)} : Holds word (l ++ m) ↔ Holds word l ∧ Holds word m :=
  List.forall_mem_append

theorem Holds.eq_map {word : Word} {l : List (Field × Nat)} (h : Holds word l) :
    l = (l.map (·.1)).map fun f => (f, fieldOf word f) := by
  rw [List.map_map]
  exact (List.map_id l).symm.trans (List.map_congr_left fun p hp => Prod.ext rfl (h p hp).symm)

/-- An opcode that `OPMAP` gives an operation has no function codes. -/
theorem functFor_of_codes {D : Descriptor} (h : D.wf = true) {o : Operation} {code : Nat} (hmem : (code, o) ∈ D.opmap) :
    D.functFor code = none := by
  refine Descriptor.functFor_eq_none.2 fun fc hfc he => ?_
  obtain ⟨hn, -, -⟩ := wf_opmap_parts h
  obtain ⟨-, -, -, hfree⟩ := wf_funct_parts h hfc
  rw [← he, Machine.lookup_of_mem hn hmem] at hfree
  cases hfree

/-- A word that holds an operation's codes has the operation's format. -/
theorem formatOf_of_codes {D : Descriptor} (h : D.wf = true) {word : Word} {o : Operation} {codes : List (Field × Nat)}
    (hc : D.CodesOf o codes) (hw : Holds word codes) : D.formatOf (fieldOf word D.op) = o.format := by
  cases hc with
  | opcode code hmem =>
    simp only [holds_cons, holds_nil, and_true] at hw
    obtain ⟨hn, -, -⟩ := wf_opmap_parts h
    simp [Descriptor.formatOf, hw, functFor_of_codes h hmem, Machine.lookup_of_mem hn hmem]
  | funct fc code hfc hmem =>
    simp only [holds_cons, holds_nil, and_true] at hw
    simp [Descriptor.formatOf, hw, Descriptor.functFor_eq_some.2 ⟨hfc, rfl⟩, wf_funct_format h hfc hmem]

theorem Operation.format_ne_U (o : Operation) : o.format ≠ .U := by cases o <;> decide

theorem decode_op (D : Descriptor) (word : Word) : (decode D word).op = fieldOf word D.op :=
  (decodedFieldsOfFormat D word).1

/-- Under an opcode with function codes the record holds the function code. -/
theorem decode_funct_of_functFor {D : Descriptor} {word : Word} {fc : FunctCodes}
    (hf : D.functFor (fieldOf word D.op) = some fc) : (decode D word).funct = some (fieldOf word fc.field) := by
  rw [decode_R (by simp [Descriptor.formatOf, hf]), hf]; rfl

/-- Dispatch gives the operation whose codes the word holds (R102). -/
theorem dispatch_eq_some_iff {D : Descriptor} (h : D.wf = true) {word : Word} {o : Operation} :
    dispatch D (decode D word) = some o ↔ ∃ codes, D.CodesOf o codes ∧ Holds word codes := by
  constructor
  · intro hd
    rw [dispatch] at hd
    split at hd
    · cases hd
    rw [decode_op] at hd
    split at hd
    · next fc hfc =>
      rw [decode_funct_of_functFor hfc] at hd
      obtain ⟨hf, hop⟩ := Descriptor.functFor_eq_some.1 hfc
      exact ⟨_, .funct fc _ hf (Machine.lookup_mem hd), by simp [hop]⟩
    · exact ⟨_, .opcode _ (Machine.lookup_mem hd), by simp⟩
  · rintro ⟨codes, hc, hw⟩
    have hfmt : (decode D word).fmt ≠ .U := by
      rw [decode_fmt, formatOf_of_codes h hc hw]; exact o.format_ne_U
    rw [dispatch, if_neg hfmt, decode_op]
    cases hc with
    | opcode code hmem =>
      simp only [holds_cons, holds_nil, and_true] at hw
      obtain ⟨hn, -, -⟩ := wf_opmap_parts h
      simp [hw, functFor_of_codes h hmem, Machine.lookup_of_mem hn hmem]
    | funct fc code hfc hmem =>
      simp only [holds_cons, holds_nil, and_true] at hw
      obtain ⟨hop, hcode⟩ := hw
      obtain ⟨hn, -⟩ := wf_funct_parts h hfc
      have hf : D.functFor (fieldOf word D.op) = some fc := Descriptor.functFor_eq_some.2 ⟨hfc, hop⟩
      simp [hf, decode_funct_of_functFor hf, hcode, Machine.lookup_of_mem hn hmem]

/-! ### The operands of an instruction -/

/-- The operand fields of a format. -/
def Descriptor.operandFields (D : Descriptor) : Format → List Field
  | .R => [D.rRa, D.rRb]
  | .I => [D.iRa, D.iImm]
  | .J => D.jTgt.toList
  | .U => []

/-- The operand fields of an instruction's words and their raw values. -/
def Instr.operands (D : Descriptor) : Instr → List (Field × Nat)
  | .add ra rb | .sub ra rb | .mov ra rb | .lw ra rb | .sw ra rb | .cmp ra rb | .jr ra rb => [(D.rRa, ra), (D.rRb, rb)]
  | .li ra imm | .rand ra imm | .beq ra imm | .bne ra imm | .bgt ra imm =>
      [(D.iRa, ra), (D.iImm, trunc D.iImm.w imm)]
  | .j tgt | .jal tgt => D.jTgt.toList.map fun f => (f, tgt)

theorem Instr.operands_fields (D : Descriptor) (i : Instr) :
    (i.operands D).map (·.1) = D.operandFields i.operation.format := by
  cases i with
  | j tgt | jal tgt => exact (List.map_map ..).trans (List.map_id _)
  | _ => rfl

theorem operandBits_eq (D : Descriptor) (i : Instr) : operandBits D i = pack (i.operands D) := by
  cases i with
  | j tgt | jal tgt => cases hj : D.jTgt <;> simp [operandBits, Instr.operands, hj]
  | _ => simp [operandBits, Instr.operands]

theorem Instr.operands_fit {D : Descriptor} {i : Instr} (h : i.fieldsFit D = true) :
    ∀ p ∈ i.operands D, p.2 < 2 ^ p.1.w := by
  cases i with
  | add ra rb | sub ra rb | mov ra rb | lw ra rb | sw ra rb | cmp ra rb | jr ra rb =>
    simpa [Instr.fieldsFit, Instr.operands, Field.holds] using h
  | li ra imm | rand ra imm | beq ra imm | bne ra imm | bgt ra imm =>
    simp only [Instr.fieldsFit, Field.holds, Bool.and_eq_true, decide_eq_true_eq] at h
    simp [Instr.operands, h, Machine.trunc_lt]
  | j tgt | jal tgt =>
    cases hj : D.jTgt with
    | none => simp [Instr.operands, hj]
    | some f => simpa [Instr.fieldsFit, Instr.operands, Field.holds, hj] using h

/-- A record of the operation's format gives the instruction whose operands the word holds. -/
theorem toInstr_of_holds {D : Descriptor} {word : Word} {i : Instr} (hk : 1 ≤ D.iImm.w)
    (hf : D.formatOf (fieldOf word D.op) = i.operation.format) (hfit : i.fieldsFit D = true)
    (hw : Holds word (i.operands D)) : toInstr i.operation (decode D word) = some i := by
  cases i with
  | add ra rb | sub ra rb | mov ra rb | lw ra rb | sw ra rb | cmp ra rb | jr ra rb =>
    simp only [Instr.operands, holds_cons] at hw
    simp [decode_R hf, Instr.operation, toInstr, Decoded.regs, hw]
  | li ra imm | rand ra imm | beq ra imm | bne ra imm | bgt ra imm =>
    simp only [Instr.operands, holds_cons] at hw
    simp only [Instr.fieldsFit, Field.holdsSigned, Bool.and_eq_true, decide_eq_true_eq] at hfit
    obtain ⟨-, hlo, hhi⟩ := hfit
    simp [decode_I hf, Instr.operation, toInstr, Decoded.regImm, hw, sext_trunc hk hlo hhi]
  | j tgt | jal tgt =>
    cases hj : D.jTgt with
    | none => simp [Instr.fieldsFit, hj] at hfit
    | some f =>
      simp only [Instr.operands, hj, Option.toList_some, List.map_cons, holds_cons] at hw
      simp [decode_J hf, Instr.operation, toInstr, hj, hw]

/-- The word of an instruction holds its operands. -/
theorem holds_operands {D : Descriptor} {word : Word} {i : Instr} (h : decodeInstr D word = some i) :
    Holds word (i.operands D) := by
  obtain ⟨-, hrec⟩ := decodeInstr_some h
  have regs {mk : Nat → Nat → Instr} (hr : (decode D word).regs mk = some i)
      (hmk : ∀ a b, (mk a b).operands D = [(D.rRa, a), (D.rRb, b)]) : Holds word (i.operands D) := by
    simp [regs_fit hr, hmk]
  have regImm {mk : Nat → Int → Instr} (hr : (decode D word).regImm mk = some i)
      (hmk : ∀ a v, (mk a v).operands D = [(D.iRa, a), (D.iImm, trunc D.iImm.w v)]) : Holds word (i.operands D) := by
    simp [regImm_fit hr, hmk, trunc_sext (fieldOf_lt word D.iImm)]
  have tgt {mk : Nat → Instr} (hr : (decode D word).tgt.map mk = some i)
      (hmk : ∀ v, (mk v).operands D = D.jTgt.toList.map fun f => (f, v)) : Holds word (i.operands D) := by
    obtain ⟨f, hj, rfl⟩ := tgt_fit hr
    simp [hmk, hj]
  cases i with
  | add ra rb | sub ra rb | mov ra rb | lw ra rb | sw ra rb | cmp ra rb | jr ra rb => exact regs hrec fun _ _ => rfl
  | li ra imm | rand ra imm | beq ra imm | bne ra imm | bgt ra imm => exact regImm hrec fun _ _ => rfl
  | j t | jal t => exact tgt hrec fun _ => rfl

/-! ### The two laws of the encoder -/

/-- The encoder packs the codes and the operands. -/
theorem encode_eq {D : Descriptor} (h : D.wf = true) {i : Instr} {codes : List (Field × Nat)}
    (hc : D.CodesOf i.operation codes) : encode D i = some (pack (codes ++ i.operands D)) := by
  rw [encode, codeBits_eq h hc, operandBits_eq, pack_append]; rfl

theorem Descriptor.CodesOf.fit {D : Descriptor} (h : D.wf = true) {o : Operation} {codes : List (Field × Nat)}
    (hc : D.CodesOf o codes) : ∀ p ∈ codes, p.2 < 2 ^ p.1.w := by
  cases hc with
  | opcode code hmem =>
    obtain ⟨-, hlt, -⟩ := wf_opmap_parts h
    simpa using hlt _ hmem
  | funct fc code hfc hmem =>
    obtain ⟨-, hlt, hR, -⟩ := wf_funct_parts h hfc
    simpa using ⟨hR, hlt _ hmem⟩

/-- The fields of an instruction's word are fields of its format, each taken once. -/
theorem fields_subperm {D : Descriptor} (h : D.wf = true) {o : Operation} {codes : List (Field × Nat)}
    (hc : D.CodesOf o codes) : (codes.map (·.1) ++ D.operandFields o.format).Subperm (D.formatFields o.format) := by
  cases hc with
  | opcode code hmem =>
    cases o.format with
    | R => exact (List.sublist_append_left ..).subperm
    | I | J | U => exact List.Subperm.refl _
  | funct fc code hfc hmem =>
    rw [wf_funct_format h hfc hmem]
    simp only [Descriptor.operandFields, Descriptor.formatFields, Descriptor.functFields, hfc]
    exact (List.Perm.cons D.op (List.perm_append_comm (l₁ := [fc.field]))).subperm

theorem fieldsFor_subset {D : Descriptor} (h : D.wf = true) {word : Word} {o : Operation} {codes : List (Field × Nat)}
    (hc : D.CodesOf o codes) (hw : Holds word codes) {f : Field} (hf : f ∈ D.fieldsFor (fieldOf word D.op)) :
    f ∈ codes.map (·.1) ++ D.operandFields o.format := by
  have hfmt := formatOf_of_codes h hc hw
  rw [Descriptor.fieldsFor, hfmt] at hf
  cases hc with
  | opcode code hmem =>
    simp only [holds_cons, holds_nil, and_true] at hw
    rw [hw, functFor_of_codes h hmem] at hf
    cases ho : o.format <;> simpa [ho, Descriptor.operandFields] using hf
  | funct fc code hfc hmem =>
    simp only [holds_cons, holds_nil, and_true] at hw
    rw [wf_funct_format h hfc hmem, Descriptor.functFor_eq_some.2 ⟨hfc, hw.1⟩] at hf
    rw [wf_funct_format h hfc hmem]
    simp only [Descriptor.operandFields, List.map_cons, List.map_nil, Option.map_some, Option.toList_some,
      List.mem_cons, List.mem_append] at hf ⊢
    tauto

/-- Settles O4: the encoder packs pairwise disjoint fields, so each reads back, and dispatch and the record follow. -/
theorem decodeOfEncode : Obligations.DecodeOfEncode := by
  unfold Obligations.DecodeOfEncode
  intro D i h hi
  rw [Instr.wf, Bool.and_eq_true, List.contains_iff_mem] at hi
  obtain ⟨hop, hfit⟩ := hi
  obtain ⟨codes, hc⟩ := Descriptor.mem_operations_iff.1 hop
  have hsub := fields_subperm h hc
  rw [← Instr.operands_fields, ← List.map_append] at hsub
  have hval : ∀ p ∈ codes ++ i.operands D, p.2 < 2 ^ p.1.w :=
    List.forall_mem_append.2 ⟨hc.fit h, Instr.operands_fit hfit⟩
  have hdisj : (codes ++ i.operands D).Pairwise fun p q => p.1.disjoint q.1 = true := by
    obtain ⟨fs, hperm, hsl⟩ := hsub
    have := (wf_formatFields_disjoint h i.operation.format).sublist hsl
    exact List.pairwise_map.1 (this.perm hperm fun {f g} hfg => by rwa [Field.disjoint_comm])
  have hN : ∀ p ∈ codes ++ i.operands D, p.1.lo + p.1.w ≤ D.N := fun p hp =>
    (wf_formatFields_fit h (hsub.subset (List.mem_map_of_mem hp))).2
  have hw : Holds (pack (codes ++ i.operands D)) (codes ++ i.operands D) := fun p hp => fieldOf_pack hdisj hval hp
  obtain ⟨hwc, hwo⟩ := holds_append.1 hw
  refine ⟨_, encode_eq h hc, pack_lt hN hval, ?_⟩
  rw [decodeInstr, (dispatch_eq_some_iff h).2 ⟨codes, hc, hwc⟩]
  exact toInstr_of_holds (wf_one_le_immWidth h) (formatOf_of_codes h hc hwc) hfit hwo

/-- Settles O5: the word holds the codes and operands of its instruction, and is packed from them. -/
theorem encodeOfDecode : Obligations.EncodeOfDecode := by
  unfold Obligations.EncodeOfDecode
  intro D word i h hi hbits
  obtain ⟨codes, hc, hw⟩ := (dispatch_eq_some_iff h).1 (decodeInstr_some hi).1
  have hall : Holds word (codes ++ i.operands D) := holds_append.2 ⟨hw, holds_operands hi⟩
  rw [encode_eq h hc, hall.eq_map, pack_fieldOf fun b hb => ?_]
  obtain ⟨f, hf, hlo, hhi⟩ := hbits b hb
  refine ⟨f, ?_, hlo, hhi⟩
  rw [List.map_append, Instr.operands_fields]
  exact fieldsFor_subset h hc hw hf

/-! ### Dispatch and the instruction -/

theorem decodeInstr_fieldsFit {D : Descriptor} {word : Word} {i : Instr} (hk : 1 ≤ D.iImm.w)
    (h : decodeInstr D word = some i) : i.fieldsFit D = true := by
  revert D word
  suffices Laws.DecodedOperandsFit.Statement i from fun {D word} => this D word
  cases i with
  | add ra rb => exact Laws.DecodedOperandsFit.add ra rb
  | sub ra rb => exact Laws.DecodedOperandsFit.sub ra rb
  | li ra imm => exact Laws.DecodedOperandsFit.li ra imm
  | mov ra rb => exact Laws.DecodedOperandsFit.mov ra rb
  | rand ra imm => exact Laws.DecodedOperandsFit.rand ra imm
  | lw ra rb => exact Laws.DecodedOperandsFit.lw ra rb
  | sw ra rb => exact Laws.DecodedOperandsFit.sw ra rb
  | cmp ra rb => exact Laws.DecodedOperandsFit.cmp ra rb
  | beq ra imm => exact Laws.DecodedOperandsFit.beq ra imm
  | bne ra imm => exact Laws.DecodedOperandsFit.bne ra imm
  | bgt ra imm => exact Laws.DecodedOperandsFit.bgt ra imm
  | j tgt => exact Laws.DecodedOperandsFit.j tgt
  | jal tgt => exact Laws.DecodedOperandsFit.jal tgt
  | jr ra rb => exact Laws.DecodedOperandsFit.jr ra rb

/-- A record of the operation's format has the operation's operands. -/
theorem exists_toInstr {D : Descriptor} {word : Word} {o : Operation} (hf : D.formatOf (fieldOf word D.op) = o.format)
    (hJ : o.format = .J → D.jTgt.isSome) : ∃ i, toInstr o (decode D word) = some i := by
  cases o with
  | add | sub | mov | lw | sw | cmp | jr => exact ⟨_, by rw [decode_R hf]; rfl⟩
  | li | rand | beq | bne | bgt => exact ⟨_, by rw [decode_I hf]; rfl⟩
  | j | jal =>
    obtain ⟨f, hj⟩ := Option.isSome_iff_exists.1 (hJ rfl)
    exact ⟨_, by rw [decode_J hf, hj]; rfl⟩

theorem decodeInstr_operation_mem {D : Descriptor} (h : D.wf = true) {word : Word} {i : Instr}
    (hi : decodeInstr D word = some i) : i.operation ∈ D.operations := by
  obtain ⟨codes, hc, -⟩ := (dispatch_eq_some_iff h).1 (decodeInstr_some hi).1
  exact Descriptor.mem_operations_iff.2 ⟨codes, hc⟩

/-- Settles O7: the codes of a dispatched operation fix the format, and the format has its operands. -/
theorem dispatchedWordHasInstruction : Obligations.DispatchedWordHasInstruction := by
  unfold Obligations.DispatchedWordHasInstruction
  intro D word o h
  constructor
  · intro hd
    obtain ⟨codes, hc, hw⟩ := (dispatch_eq_some_iff h).1 hd
    obtain ⟨hJ, -, -⟩ := wf_operation_needs h (Descriptor.mem_operations_iff.2 ⟨codes, hc⟩)
    obtain ⟨i, hi⟩ := exists_toInstr (formatOf_of_codes h hc hw) hJ
    have hdec : decodeInstr D word = some i := by rw [decodeInstr, hd]; exact hi
    refine ⟨i, hdec, toInstr_operation hi, ?_⟩
    rw [Instr.wf, Bool.and_eq_true, List.contains_iff_mem]
    exact ⟨decodeInstr_operation_mem h hdec, decodeInstr_fieldsFit (wf_one_le_immWidth h) hdec⟩
  · rintro ⟨i, hdec, rfl, -⟩
    exact (decodeInstr_some hdec).1

/-! ### Don't-care bits -/

theorem fieldOf_congr {word other : Word} {f : Field}
    (h : ∀ b, f.lo ≤ b → b < f.lo + f.w → other.testBit b = word.testBit b) : fieldOf other f = fieldOf word f := by
  refine Nat.eq_of_testBit_eq fun b => ?_
  rw [testBit_fieldOf, testBit_fieldOf]
  by_cases hb : b < f.w
  · rw [h _ (Nat.le_add_right ..) (by omega)]
  · simp [hb]

/-- The record depends on the fields of the word's format alone. -/
theorem decode_congr {D : Descriptor} {word other : Word}
    (h : ∀ f ∈ D.fieldsFor (fieldOf word D.op), fieldOf other f = fieldOf word f) : decode D other = decode D word := by
  have hop : fieldOf other D.op = fieldOf word D.op := h D.op (List.mem_cons_self ..)
  cases hf : D.formatOf (fieldOf word D.op) with
  | R =>
    simp only [Descriptor.fieldsFor, hf, List.cons_append, List.nil_append, List.forall_mem_cons] at h
    obtain ⟨-, hra, hrb, hfunct⟩ := h
    rw [decode_R hf, decode_R (hop.symm ▸ hf), hop, hra, hrb]
    cases hfc : D.functFor (fieldOf word D.op) with
    | none => rfl
    | some fc => simp [hfunct fc.field (by simp [hfc])]
  | I =>
    simp only [Descriptor.fieldsFor, hf, List.forall_mem_cons] at h
    obtain ⟨-, hra, himm, -⟩ := h
    rw [decode_I hf, decode_I (hop.symm ▸ hf), hop, hra, himm]
  | J =>
    rw [decode_J hf, decode_J (hop.symm ▸ hf), hop]
    cases hj : D.jTgt with
    | none => rfl
    | some f => simp [h f (by simp [Descriptor.fieldsFor, hf, hj])]
  | U => rw [decode_U hf, decode_U (hop.symm ▸ hf), hop]

/-- Settles O6: words that agree on the bits of a field agree on the field, and the record is made of fields. -/
theorem dontCareBitsIgnored : Obligations.DontCareBitsIgnored := by
  unfold Obligations.DontCareBitsIgnored
  intro D word other h
  have hd : decode D other = decode D word := decode_congr fun f hf => fieldOf_congr (h f hf)
  exact ⟨hd, by rw [decodeInstr, decodeInstr, hd]⟩

/-! ### The reference descriptors -/

/-- A used register field of an instruction in range is a value of one of the descriptor's register fields. -/
theorem usedReg_lt {D : Descriptor} {i : Instr} {a : Nat} (h : i.fieldsFit D = true)
    (hu : Machine.Instr.usedRa i = some a ∨ Machine.Instr.usedRb i = some a) :
    a < 2 ^ D.rRa.w ∨ a < 2 ^ D.rRb.w ∨ a < 2 ^ D.iRa.w := by
  cases i with
  | add ra rb | sub ra rb | mov ra rb | lw ra rb | sw ra rb =>
    simp only [Instr.fieldsFit, Field.holds, Bool.and_eq_true, decide_eq_true_eq] at h
    obtain ⟨hra, hrb⟩ := h
    rcases hu with hu | hu <;> cases hu
    · exact .inl hra
    · exact .inr (.inl hrb)
  | cmp ra rb | jr ra rb =>
    simp only [Instr.fieldsFit, Field.holds, Bool.and_eq_true, decide_eq_true_eq] at h
    rcases hu with hu | hu <;> cases hu
    exact .inl h.1
  | li ra imm | rand ra imm | beq ra imm | bne ra imm | bgt ra imm =>
    simp only [Instr.fieldsFit, Field.holds, Bool.and_eq_true, decide_eq_true_eq] at h
    rcases hu with hu | hu <;> cases hu
    exact .inr (.inr h.1)
  | j tgt | jal tgt => rcases hu with hu | hu <;> cases hu

/-- Settles O8: both descriptors have four-bit register fields and sixteen registers. -/
theorem referenceRegistersInRange : Obligations.ReferenceRegistersInRange := by
  unfold Obligations.ReferenceRegistersInRange
  rintro D word i a (rfl | rfl) hi hu
  · exact (usedReg_lt (decodeInstr_fieldsFit (by decide) hi) hu).elim id (Or.elim · id id)
  · exact (usedReg_lt (decodeInstr_fieldsFit (by decide) hi) hu).elim id (Or.elim · id id)

/-- Settles O1: the decoder evaluated on each word. -/
theorem referenceWordsDecode : Obligations.ReferenceWordsDecode := by
  unfold Obligations.ReferenceWordsDecode
  decide

end Sys2Proof
end

section
/-!
Proofs of the statements about 60_exceptions.md: the first fault of an instruction in the order of priority (R208), the
step that raises it and commits nothing else (R206), and the step that raises none.
-/

namespace Sys2Proof.Machine

/-! ### The first fault of an instruction -/

/-- BadRegister for a used register field that names no register (R101). -/
def regFault (s : State) (field : RegField) (used : Option Nat) : Option FaultRecord :=
  (used.filter fun v => s.arch.R ≤ v).map (.badRegister s.pc field)

/-- The fault of an operation's own (R200): the gaps of the I/O window, and rand's negative bound. -/
def ownFault (s : State) : Instr → Option FaultRecord
  | .lw _ rb =>
      if s.arch.B ≤ s.readReg rb ∧ s.readReg rb < s.arch.T then
        some (.ioAddressError s.pc (s.readReg rb) .load) else none
  | .sw _ rb =>
      if s.arch.M * s.arch.M ≤ s.readReg rb ∧ s.readReg rb < s.arch.T then
        some (.ioAddressError s.pc (s.readReg rb) .store) else none
  | .rand _ imm => if s.arch.randMode = .bound ∧ imm < 0 then some (.randBound s.pc imm) else none
  | _ => none

/-- The fault that executing an instruction raises, the first in the order of R208 (`ra` before `rb`: log 7). -/
def faultAt (s : State) (i : Instr) : Option FaultRecord :=
  (regFault s .ra (Instr.usedRa i)).or ((regFault s .rb (Instr.usedRb i)).or (ownFault s i))

theorem regFault_eq_some {s : State} {f : RegField} {u : Option Nat} {r : FaultRecord} :
    regFault s f u = some r ↔ ∃ v, u = some v ∧ s.arch.R ≤ v ∧ r = .badRegister s.pc f v := by
  simp only [regFault, Option.map_eq_some_iff, Option.filter_eq_some_iff, decide_eq_true_eq, and_assoc,
    eq_comm (b := r)]

@[simp] theorem regFault_none (s : State) (f : RegField) : regFault s f none = none := rfl

theorem regFault_of_le {s : State} {v : Nat} (h : s.arch.R ≤ v) (f : RegField) :
    regFault s f (some v) = some (.badRegister s.pc f v) :=
  regFault_eq_some.2 ⟨v, rfl, h, rfl⟩

theorem regFault_of_lt {s : State} {v : Nat} (h : v < s.arch.R) (f : RegField) : regFault s f (some v) = none :=
  Option.map_eq_none_iff.2 (Option.filter_some_neg (by simpa using h))

theorem regFault_some_eq_none {s : State} {f : RegField} {v : Nat} : regFault s f (some v) = none ↔ v < s.arch.R := by
  refine ⟨fun h => ?_, (regFault_of_lt · f)⟩
  by_contra hv
  rw [regFault_of_le (Nat.not_lt.1 hv)] at h
  cases h

/-! ### An execution that raises its fault -/

theorem checkReg_of_fault {s : State} {a : Nat} {f : RegField} {own : Option FaultRecord} {r : FaultRecord}
    {k : Host.Outcome State Fault Refusal} (h : (regFault s f (some a)).or own = some r)
    (hk : own = some r → k = .next (s.raise r)) : checkReg s f a k = .next (s.raise r) := by
  rcases Nat.lt_or_ge a s.arch.R with ha | ha
  · rw [regFault_of_lt ha, Option.none_or] at h
    rw [checkReg_ok ha, hk h]
  · rw [regFault_of_le ha, Option.some_or] at h
    rw [checkReg_bad ha, Option.some.inj h]

theorem checkRegs_of_fault {s : State} {a b : Nat} {own : Option FaultRecord} {r : FaultRecord}
    {k : Host.Outcome State Fault Refusal}
    (h : (regFault s .ra (some a)).or ((regFault s .rb (some b)).or own) = some r)
    (hk : own = some r → k = .next (s.raise r)) : checkRegs s a b k = .next (s.raise r) :=
  checkReg_of_fault h fun h => checkReg_of_fault h hk

theorem State.memRead_eq_none {s : State} {a : Nat} : s.memRead a = none ↔ s.arch.B ≤ a ∧ a < s.arch.T := by
  rcases s.memRead_cases a with ⟨h, hr⟩ | ⟨hB, hT, hr⟩ | ⟨-, h, hr⟩ <;> rw [hr]
  · simp [h]
  · simp [hB, hT]
  · simp [h]

theorem State.memWrite_eq_none {s : State} {a v : Nat} :
    s.memWrite a v = none ↔ s.arch.M * s.arch.M ≤ a ∧ a < s.arch.T := by
  rcases s.memWrite_cases a v with ⟨h, hr⟩ | ⟨hM, hT, hr⟩ | ⟨-, h, hr⟩ <;> rw [hr]
  · simp [h]
  · simp [hM, hT]
  · simp [h]

theorem drawnValue_eq_none {D : Descriptor} {imm : Int} {u : Nat} :
    drawnValue D imm u = none ↔ D.randMode = .bound ∧ imm < 0 := by
  cases h : D.randMode <;> simp [drawnValue, h]

/-- An instruction with a fault raises it, and nothing else happens. -/
theorem exec_of_faultAt {s : State} {i : Instr} {r : FaultRecord} (h : faultAt s i = some r) :
    exec i s = .next (s.raise r) := by
  cases i with
  | add ra rb | sub ra rb | mov ra rb => exact checkRegs_of_fault h nofun
  | li ra imm | cmp ra rb | beq ra imm | bne ra imm | bgt ra imm | jr ra rb => exact checkReg_of_fault h nofun
  | rand ra imm =>
    refine checkReg_of_fault h fun hown => ?_
    obtain ⟨hc, hr⟩ := Option.ite_none_right_eq_some.1 hown
    rw [randWith, drawnValue_eq_none.2 hc, ← Option.some.inj hr]
  | lw ra rb =>
    refine checkRegs_of_fault h fun hown => ?_
    obtain ⟨hc, hr⟩ := Option.ite_none_right_eq_some.1 hown
    rw [State.effectiveAddress, State.memRead_eq_none.2 hc, ← Option.some.inj hr]
  | sw ra rb =>
    refine checkRegs_of_fault h fun hown => ?_
    obtain ⟨hc, hr⟩ := Option.ite_none_right_eq_some.1 hown
    rw [State.effectiveAddress, State.memWrite_eq_none.2 hc, ← Option.some.inj hr]
  | j tgt | jal tgt => cases h

/-! ### An execution that raises none -/

/-- Where an instruction that raises no fault leaves `pc` (R38). -/
def nextPc (s : State) : Instr → Int
  | .beq ra imm => if s.compare .eq ra then s.pc + 1 + imm else s.pc + 1
  | .bne ra imm => if s.compare .ne ra then s.pc + 1 + imm else s.pc + 1
  | .bgt ra imm => if s.compare .gt ra then s.pc + 1 + imm else s.pc + 1
  | .j tgt | .jal tgt => tgt
  | .jr ra _ => s.readReg ra
  | _ => s.pc + 1

theorem faultAt_eq_none {s : State} {i : Instr} :
    faultAt s i = none ↔
      regFault s .ra (Instr.usedRa i) = none ∧ regFault s .rb (Instr.usedRb i) = none ∧ ownFault s i = none := by
  simp only [faultAt, Option.or_eq_none_iff]

/-- An instruction with no fault leaves the run status, and `pc` where R38 says. -/
theorem exec_of_faultAt_none {s t : State} {i : Instr} (hn : faultAt s i = none) (h : exec i s = .next t) :
    t.fault = s.fault ∧ t.pc = nextPc s i := by
  obtain ⟨hra, hrb, hown⟩ := faultAt_eq_none.1 hn
  cases i with
  | add ra rb | sub ra rb | mov ra rb =>
    cases (checkRegs_ok (regFault_some_eq_none.1 hra) (regFault_some_eq_none.1 hrb) _).symm.trans h
    simp [nextPc]
  | li ra imm =>
    cases (checkReg_ok (regFault_some_eq_none.1 hra) .ra _).symm.trans h
    simp [nextPc]
  | rand ra imm =>
    replace h := (checkReg_ok (regFault_some_eq_none.1 hra) .ra _).symm.trans h
    rw [randWith] at h
    split at h
    · next hd => simp [ownFault, drawnValue_eq_none.1 hd] at hown
    · cases h; simp [nextPc]
  | lw ra rb =>
    replace h := (checkRegs_ok (regFault_some_eq_none.1 hra) (regFault_some_eq_none.1 hrb) _).symm.trans h
    split at h
    · next hm => exact absurd hown (by simpa [ownFault, State.effectiveAddress] using State.memRead_eq_none.1 hm)
    · cases h; simp [nextPc]
  | sw ra rb =>
    replace h := (checkRegs_ok (regFault_some_eq_none.1 hra) (regFault_some_eq_none.1 hrb) _).symm.trans h
    split at h
    · next hm => exact absurd hown (by simpa [ownFault, State.effectiveAddress] using State.memWrite_eq_none.1 hm)
    · next u hu =>
      cases h
      obtain ⟨-, hpc, -, -, -, hf, -⟩ := State.memWrite_frame hu
      simp [nextPc, hpc, hf]
  | cmp ra rb =>
    replace h := (checkReg_ok (regFault_some_eq_none.1 hra) .ra _).symm.trans h
    split at h <;> cases h
    simp [nextPc]
  | beq ra imm | bne ra imm | bgt ra imm | jr ra rb =>
    cases (checkReg_ok (regFault_some_eq_none.1 hra) .ra _).symm.trans h
    exact ⟨rfl, rfl⟩
  | j tgt => cases h; exact ⟨rfl, rfl⟩
  | jal tgt =>
    simp only [exec, execJal] at h
    split at h <;> cases h
    simp [nextPc]

/-- The fault that an execution records, in a block with none recorded, is the instruction's first. -/
theorem exec_fault_iff {s : State} (hs : s.fault = none) {i : Instr} {r : FaultRecord} :
    (∃ t, exec i s = .next t ∧ t.fault = some r) ↔ faultAt s i = some r := by
  constructor
  · rintro ⟨t, h, ht⟩
    cases hf : faultAt s i with
    | none => simp [(exec_of_faultAt_none hf h).1, hs] at ht
    | some q =>
      cases (exec_of_faultAt hf).symm.trans h
      exact ht
  · exact fun hf => ⟨_, exec_of_faultAt hf, rfl⟩

/-! ### The table of causes -/

theorem usedRa_of_usedRb {i : Instr} {b : Nat} (h : Instr.usedRb i = some b) : ∃ a, Instr.usedRa i = some a := by
  cases i with
  | add ra rb | sub ra rb | mov ra rb | lw ra rb | sw ra rb => exact ⟨ra, rfl⟩
  | _ => cases h

/-- The registers an instruction names are registers of the file, and its own fault is `r`. -/
theorem faultAt_eq_own {s : State} {i : Instr} {r : FaultRecord} (hr : ∀ f v, r ≠ .badRegister s.pc f v) :
    faultAt s i = some r ↔
      (∀ a, Instr.usedRa i = some a → a < s.arch.R) ∧ (∀ b, Instr.usedRb i = some b → b < s.arch.R) ∧
      ownFault s i = some r := by
  have skip (f : RegField) (u : Option Nat) (o : Option FaultRecord) :
      (regFault s f u).or o = some r ↔ (∀ v, u = some v → v < s.arch.R) ∧ o = some r := by
    cases u with
    | none => simp
    | some v =>
      rcases Nat.lt_or_ge v s.arch.R with hv | hv
      · simp [regFault_of_lt hv, hv]
      · simp [regFault_of_le hv, Nat.not_lt.2 hv, (hr f v).symm]
  rw [faultAt, skip, skip]

theorem ownFault_eq_some {s : State} {i : Instr} {r : FaultRecord} :
    ownFault s i = some r ↔
      (∃ ra rb, i = .lw ra rb ∧ (s.arch.B ≤ s.readReg rb ∧ s.readReg rb < s.arch.T) ∧
        r = .ioAddressError s.pc (s.readReg rb) .load) ∨
      (∃ ra rb, i = .sw ra rb ∧ (s.arch.M * s.arch.M ≤ s.readReg rb ∧ s.readReg rb < s.arch.T) ∧
        r = .ioAddressError s.pc (s.readReg rb) .store) ∨
      ∃ ra imm, i = .rand ra imm ∧ (s.arch.randMode = .bound ∧ imm < 0) ∧ r = .randBound s.pc imm := by
  cases i with
  | lw ra rb | sw ra rb | rand ra imm => simp [ownFault, eq_comm (b := r)]
  | _ => simp [ownFault]

theorem faultAt_badRegister_ra {s : State} {i : Instr} {p : Int} {v : Nat} :
    faultAt s i = some (.badRegister p .ra v) ↔ p = s.pc ∧ s.arch.R ≤ v ∧ Instr.usedRa i = some v := by
  constructor
  · intro h
    rw [faultAt, Option.or_eq_some_iff, Option.or_eq_some_iff] at h
    obtain h | ⟨-, h | ⟨-, h⟩⟩ := h
    · obtain ⟨w, hu, hw, hr⟩ := regFault_eq_some.1 h
      cases hr
      exact ⟨rfl, hw, hu⟩
    · obtain ⟨_, _, _, hr⟩ := regFault_eq_some.1 h
      cases hr
    · simp [ownFault_eq_some] at h
  · rintro ⟨rfl, hv, hu⟩
    rw [faultAt, hu, regFault_of_le hv, Option.some_or]

theorem faultAt_badRegister_rb {s : State} {i : Instr} {p : Int} {v : Nat} :
    faultAt s i = some (.badRegister p .rb v) ↔
      p = s.pc ∧ s.arch.R ≤ v ∧ Instr.usedRb i = some v ∧ ∃ a, Instr.usedRa i = some a ∧ a < s.arch.R := by
  constructor
  · intro h
    rw [faultAt, Option.or_eq_some_iff, Option.or_eq_some_iff] at h
    obtain h | ⟨hra, h | ⟨-, h⟩⟩ := h
    · obtain ⟨_, _, _, hr⟩ := regFault_eq_some.1 h
      cases hr
    · obtain ⟨w, hu, hw, hr⟩ := regFault_eq_some.1 h
      cases hr
      obtain ⟨a, ha⟩ := usedRa_of_usedRb hu
      exact ⟨rfl, hw, hu, a, ha, regFault_some_eq_none.1 (ha ▸ hra)⟩
    · simp [ownFault_eq_some] at h
  · rintro ⟨rfl, hv, hu, a, ha, haR⟩
    rw [faultAt, ha, hu, regFault_of_lt haR, Option.none_or, regFault_of_le hv, Option.some_or]

/-- The table of causes, for a block about to execute an instruction, is the instruction's first fault. -/
theorem faultCause_of_current {s : State} {i : Instr} (h : s.current = some i) (r : FaultRecord) :
    s.faultCause r ↔ faultAt s i = some r := by
  obtain ⟨word, hw, hd⟩ := Option.bind_eq_some_iff.1 h
  cases r with
  | addressFault p =>
    rw [State.faultCause, ← State.fetch_eq_none, hw, faultAt_eq_own (by simp), ownFault_eq_some]
    simp
  | unrecognizedInstruction p w op funct =>
    rw [faultAt_eq_own (by simp), ownFault_eq_some]
    simp only [State.faultCause, hw]
    constructor
    · rintro ⟨-, hw', hd', -⟩
      cases hw'; cases hd.symm.trans hd'
    · simp
  | badRegister p f v =>
    cases f with
    | ra => simp [faultAt_badRegister_ra, State.faultCause, h]
    | rb => simp [faultAt_badRegister_rb, State.faultCause, h]
  | ioAddressError p ea access =>
    rw [faultAt_eq_own (by simp), ownFault_eq_some, State.faultCause, h]
    cases access with
    | load =>
      constructor
      · rintro ⟨rfl, ra, rb, ha, hb, rfl, hT, hi, hB⟩
        cases hi
        simp [ha, hb, hT, hB, Instr.usedRa, Instr.usedRb]
      · rintro ⟨ha, hb, ⟨ra, rb, rfl, ⟨hB, hT⟩, hr⟩ | ⟨_, _, _, _, hr⟩ | ⟨_, _, _, _, hr⟩⟩ <;> cases hr
        exact ⟨rfl, ra, rb, ha ra rfl, hb rb rfl, rfl, hT, rfl, hB⟩
    | store =>
      constructor
      · rintro ⟨rfl, ra, rb, ha, hb, rfl, hT, hi, hM⟩
        cases hi
        simp [ha, hb, hT, hM, Instr.usedRa, Instr.usedRb]
      · rintro ⟨ha, hb, ⟨_, _, _, _, hr⟩ | ⟨ra, rb, rfl, ⟨hM, hT⟩, hr⟩ | ⟨_, _, _, _, hr⟩⟩ <;> cases hr
        exact ⟨rfl, ra, rb, ha ra rfl, hb rb rfl, rfl, hT, rfl, hM⟩
  | randBound p imm =>
    rw [faultAt_eq_own (by simp), ownFault_eq_some, State.faultCause, h]
    constructor
    · rintro ⟨rfl, hm, himm, ra, ha, hi⟩
      cases hi
      simp [ha, hm, himm, Instr.usedRa, Instr.usedRb]
    · rintro ⟨ha, -, ⟨_, _, _, _, hr⟩ | ⟨_, _, _, _, hr⟩ | ⟨ra, imm', rfl, ⟨hm, himm⟩, hr⟩⟩ <;> cases hr
      exact ⟨rfl, hm, himm, ra, ha ra rfl, rfl⟩

/-! ### Steps -/

theorem current_eq_none {s : State} :
    s.current = none ↔ s.fetch = none ∨ ∃ word, s.fetch = some word ∧ decodeInstr s.arch word = none := by
  cases hf : s.fetch <;> simp [State.current, hf]

theorem step_of_current {s : State} (hs : s.mayStep) {i : Instr} (h : s.current = some i) : step s = exec i s := by
  obtain ⟨word, hw, hd⟩ := Option.bind_eq_some_iff.1 h
  simp only [step_of_mayStep hs, State.cycle, hw, hd]

theorem step_of_unrecognized {s : State} (hs : s.mayStep) {word : Word} (hw : s.fetch = some word)
    (hd : decodeInstr s.arch word = none) : step s = .next (s.unrecognizedWord word) := by
  simp only [step_of_mayStep hs, State.cycle, hw, hd]

/-- A block with no instruction to execute has no cause but AddressFault and UnrecognizedInstruction. -/
theorem faultCause_of_fetch_none {s : State} (h : s.fetch = none) (r : FaultRecord) :
    s.faultCause r ↔ r = .addressFault s.pc := by
  have hc : s.current = none := current_eq_none.2 (.inl h)
  cases r with
  | addressFault p => simp [State.faultCause, ← State.fetch_eq_none, h]
  | unrecognizedInstruction p w op funct => simp [State.faultCause, h]
  | badRegister p f v => simp [State.faultCause, hc]
  | ioAddressError p ea access => cases access <;> simp [State.faultCause, hc]
  | randBound p imm => simp [State.faultCause, hc]

theorem faultCause_of_unrecognized {s : State} {word : Word} (hw : s.fetch = some word)
    (hd : decodeInstr s.arch word = none) (r : FaultRecord) :
    s.faultCause r ↔ s.arch.unrecognized = .fault ∧
      r = .unrecognizedInstruction s.pc word (decode s.arch word).op (decode s.arch word).funct := by
  have hc : s.current = none := current_eq_none.2 (.inr ⟨word, hw, hd⟩)
  cases r with
  | addressFault p => simp [State.faultCause, ← State.fetch_eq_none, hw]
  | unrecognizedInstruction p w op funct =>
    simp only [State.faultCause, hw, Option.some.injEq, FaultRecord.unrecognizedInstruction.injEq]
    constructor
    · rintro ⟨rfl, rfl, -, hu, rfl, rfl⟩
      exact ⟨hu, rfl, rfl, rfl, rfl⟩
    · rintro ⟨hu, rfl, rfl, rfl, rfl⟩
      exact ⟨rfl, rfl, hd, hu, rfl, rfl⟩
  | badRegister p f v => simp [State.faultCause, hc]
  | ioAddressError p ea access => cases access <;> simp [State.faultCause, hc]
  | randBound p imm => simp [State.faultCause, hc]

/-- Settles O14: by what the cycle finds: no word, an unrecognized word, or an instruction. -/
theorem faultRaisedExactlyForCause : Obligations.FaultRaisedExactlyForCause := by
  unfold Obligations.FaultRaisedExactlyForCause
  intro s r hs
  cases hw : s.fetch with
  | none =>
    rw [faultCause_of_fetch_none hw, step_of_fetch_none hs hw]
    simp [eq_comm (b := r)]
  | some word =>
    cases hd : decodeInstr s.arch word with
    | none =>
      simp only [faultCause_of_unrecognized hw hd, step_of_unrecognized hs hw hd, Host.Outcome.next.injEq,
        exists_eq_left', State.unrecognizedWord]
      cases hu : s.arch.unrecognized with
      | fault => simp [eq_comm]
      | nop => simp [hs.2]
    | some i =>
      have hc : s.current = some i := by simp [State.current, hw, hd]
      rw [faultCause_of_current hc, step_of_current hs hc, exec_fault_iff hs.2]

/-- A next state keeps the run status, or is the state before with a record. -/
theorem Effect.fault_or_raised {s t : State} {i : Option Instr} (h : Effect s i t) :
    t.fault = s.fault ∨ ∃ r, t = s.raise r := by
  cases h with
  | raised r => exact .inr ⟨r, rfl⟩
  | stored ra rb u hu =>
    obtain ⟨-, -, -, -, -, hf, -⟩ := State.memWrite_frame hu
    exact .inl hf
  | _ => exact .inl (by simp)

/-- Settles O15: of the shapes of a next state only the raised one changes the run status. -/
theorem faultsArePrecise : Obligations.FaultsArePrecise := by
  unfold Obligations.FaultsArePrecise
  refine ⟨fun s t h hf => ?_, fun i s t h hf => (exec_effect h).fault_or_raised.resolve_left hf⟩
  obtain ⟨-, hnone, -⟩ := step_next h
  exact ⟨hnone, (step_effect h).fault_or_raised.resolve_left fun he => hf (he.trans hnone)⟩

/-- Settles O16: a bad register field is the first fault in the order of priority. -/
theorem badRegisterTaken : Obligations.BadRegisterTaken := by
  unfold Obligations.BadRegisterTaken
  intro i s
  refine ⟨fun a ha hR => exec_of_faultAt (faultAt_badRegister_ra.2 ⟨rfl, hR, ha⟩), fun a b ha haR hb hR => ?_⟩
  exact exec_of_faultAt (faultAt_badRegister_rb.2 ⟨rfl, hR, hb, a, ha, haR⟩)

/-- Settles O38: with both registers in the file, the gap is the first fault of the load and of the store. -/
theorem ioGapAccessFaults : Obligations.IoGapAccessFaults := by
  unfold Obligations.IoGapAccessFaults
  intro s ra rb ha hb hT
  refine ⟨fun hB => exec_of_faultAt ?_, fun hM => exec_of_faultAt ?_⟩
  · simp [faultAt, Instr.usedRa, Instr.usedRb, regFault_of_lt ha, regFault_of_lt hb, ownFault, hB, hT]
  · simp [faultAt, Instr.usedRa, Instr.usedRb, regFault_of_lt ha, regFault_of_lt hb, ownFault, hM, hT]

/-- Settles O9: the cycle of a block that may step fetches the word and executes its instruction. -/
theorem stepRunsDecodedInstruction : Obligations.StepRunsDecodedInstruction := by
  unfold Obligations.StepRunsDecodedInstruction
  intro s word i hs hpc hw hd
  exact step_of_current hs (Option.bind_eq_some_iff.2 ⟨word, State.fetch_eq_some.2 ⟨hpc, hw⟩, hd⟩)

/-- Settles O11: by the two policies of the descriptor. -/
theorem unrecognizedWordPolicy : Obligations.UnrecognizedWordPolicy := by
  unfold Obligations.UnrecognizedWordPolicy
  intro s word hs hw hd
  rw [step_of_unrecognized hs hw hd]
  refine ⟨fun hu => ?_, fun hu => ?_⟩
  · rw [State.unrecognizedWord, hu]; rfl
  · rw [State.unrecognizedWord, hu]; rfl

/-- Settles O13: the descriptor is the first thing a step looks at. -/
theorem illFormedDescriptorRefused : Obligations.IllFormedDescriptorRefused := by
  unfold Obligations.IllFormedDescriptorRefused
  intro s h
  simp [step, h]

end Sys2Proof.Machine
end

section
/-!
Proofs of the statements about 70_reset_and_hazards.md: reset and load (R230, R234, R235), the step request and the runs
made of it (R238 to R240), and the Run Controller around them (R247).
-/

namespace Sys2Proof.Machine

/-! ### Reset and load -/

/-- After a full reset every register reads 0 or its reserved constant. -/
theorem State.readReg_cpuReset (s : State) (i : Nat) :
    s.cpuReset.readReg i = (s.arch.reserved.lookup i).getD 0 := by
  cases hl : s.arch.reserved.lookup i with
  | some c => exact State.readReg_reserved hl
  | none =>
    rcases Nat.lt_or_ge i s.arch.R with hi | hi <;>
      simp [State.readReg, State.create, List.getD, hl, hi]

/-- Settles O47: by the reset value of each element. -/
theorem resetLeavesStatedValues : Obligations.ResetLeavesStatedValues := by
  unfold Obligations.ResetLeavesStatedValues
  rintro s t reply h
  cases h
  refine ⟨rfl, rfl, by simp [State.create], fun i => ?_, fun a => rfl, by simp, fun a => ?_, by simp,
    fun row col => ?_, rfl, rfl, rfl⟩
  · exact State.readReg_cpuReset s i
  · simp only [State.button, State.cpuReset_buttons, List.getD, List.getElem?_getD_replicate_default_eq]
    rfl
  · simp only [State.displayCell, State.cpuReset_display, List.getD]
    cases h : (List.replicate s.arch.M (List.replicate s.arch.M 0))[row]? with
    | none => rfl
    | some cells =>
      obtain rfl := List.eq_of_mem_replicate (List.mem_of_getElem? h)
      exact List.getElem?_getD_replicate_default_eq ..

theorem LoadFile.words_tokens_cons (N : Nat) (token : Option Nat) (ts : List (Option Nat)) :
    (LoadFile.tokens (token :: ts)).words N =
      (token.filter fun w => w < 2 ^ N).bind fun w => ((LoadFile.tokens ts).words N).map (w :: ·) := by
  simp only [LoadFile.words, List.mapM_cons, Option.map_eq_bind]
  rfl

/-- The words of a file are its tokens, all `N`-bit words. -/
theorem LoadFile.words_tokens_eq_some {N : Nat} {ts : List (Option Nat)} {ws : List Word} :
    (LoadFile.tokens ts).words N = some ws ↔ ts = ws.map some ∧ ∀ w ∈ ws, w < 2 ^ N := by
  induction ts generalizing ws with
  | nil =>
    cases ws <;> simp [LoadFile.words]
  | cons token ts ih =>
    rw [LoadFile.words_tokens_cons]
    simp only [Option.bind_eq_some_iff, Option.filter_eq_some_iff, Option.map_eq_some_iff, ih, decide_eq_true_eq]
    constructor
    · rintro ⟨w, ⟨rfl, hw⟩, ws, ⟨rfl, hws⟩, rfl⟩
      exact ⟨rfl, List.forall_mem_cons.2 ⟨hw, hws⟩⟩
    · cases ws with
      | nil => simp
      | cons w ws =>
        rintro ⟨h, hws⟩
        obtain ⟨rfl, rfl⟩ := List.cons.inj h
        obtain ⟨hw, hws⟩ := List.forall_mem_cons.1 hws
        exact ⟨w, ⟨rfl, hw⟩, ws, ⟨rfl, hws⟩, rfl⟩

theorem State.hostLoad_of_words {s : State} {file : LoadFile} {ws : List Word} (h : file.words s.arch.N = some ws) :
    s.hostLoad file = (.ok, { s.cpuReset with is := ws }) := by
  rw [State.hostLoad, h]

theorem State.hostLoad_of_bad {s : State} {file : LoadFile} (h : file.words s.arch.N = none) :
    s.hostLoad file = (.loadError, s) := by
  rw [State.hostLoad, h]

/-- Settles O48: by which files have words. -/
theorem loadIsAllOrNothing : Obligations.LoadIsAllOrNothing := by
  unfold Obligations.LoadIsAllOrNothing
  intro s ts
  refine ⟨fun ws hts hws => ?_, ?_, State.hostLoad_of_bad rfl⟩
  · exact State.hostLoad_of_words (LoadFile.words_tokens_eq_some.2 ⟨hts, hws⟩)
  · rintro ⟨token, hmem, hbad⟩
    refine State.hostLoad_of_bad (Option.eq_none_iff_forall_ne_some.2 fun ws hws => ?_)
    obtain ⟨rfl, hlt⟩ := LoadFile.words_tokens_eq_some.1 hws
    obtain ⟨w, hw, rfl⟩ := List.mem_map.1 hmem
    exact Nat.not_lt.2 (hbad w rfl) (hlt w hw)

/-- Settles O53: each operation of the controller is the block's, and sets the phase as R247 says. -/
theorem runControllerPhases : Obligations.RunControllerPhases := by
  unfold Obligations.RunControllerPhases
  refine ⟨fun D => ⟨rfl, rfl⟩, fun c => ⟨⟨rfl, rfl, rfl⟩, fun file reply d h => ?_, fun cs reply d h => ?_,
    fun op => ?_, fun hidle => ?_⟩⟩
  · rw [RunController.load] at h
    cases hw : file.words c.block.arch.N with
    | none => rw [State.hostLoad_of_bad hw] at h ⊢; cases h; exact ⟨rfl, rfl⟩
    | some ws => rw [State.hostLoad_of_words hw] at h ⊢; cases h; exact ⟨rfl, rfl⟩
  · cases h; exact ⟨rfl, rfl⟩
  · cases hr : c.running with
    | none => simp [RunController.phase, RunController.start, hr]
    | some r => simp [RunController.phase, RunController.start, hr]
  · cases hr : c.running with
    | none => rw [RunController.cycle, hr]
    | some r => simp [RunController.phase, hr] at hidle

/-! ### The step request -/

section
variable {s t : State} {r : FaultRecord}

theorem State.hostStep_of_next (h : step s = .next t) (hf : t.fault = none) : s.hostStep = (.ok, t) := by
  simp only [State.hostStep, h, hf]

theorem State.hostStep_of_raised (h : step s = .next t) (hf : t.fault = some r) : s.hostStep = (.faulted r, t) := by
  simp only [State.hostStep, h, hf]

theorem State.hostStep_of_stopped (h : step s = .fault (.stopped r)) : s.hostStep = (.faulted r, s) := by
  simp only [State.hostStep, h]

theorem State.hostStep_of_refused {r : Refusal} (h : step s = .refused r) : s.hostStep = (.refused r, s) := by
  simp only [State.hostStep, h]

/-- What the step request can answer. -/
theorem State.hostStep_cases (s : State) :
    (∃ t, step s = .next t ∧ t.fault = none ∧ s.hostStep = (.ok, t)) ∨
    (∃ t r, step s = .next t ∧ t.fault = some r ∧ s.hostStep = (.faulted r, t)) ∨
    (∃ r, step s = .fault (.stopped r) ∧ s.hostStep = (.faulted r, s)) ∨
    ∃ r, step s = .refused r ∧ s.hostStep = (.refused r, s) := by
  cases h : step s with
  | next t =>
    cases hf : t.fault with
    | none => exact .inl ⟨t, rfl, hf, State.hostStep_of_next h hf⟩
    | some r => exact .inr (.inl ⟨t, r, rfl, hf, State.hostStep_of_raised h hf⟩)
  | fault q => obtain ⟨r⟩ := q; exact .inr (.inr (.inl ⟨r, rfl, State.hostStep_of_stopped h⟩))
  | refused r => exact .inr (.inr (.inr ⟨r, rfl, State.hostStep_of_refused h⟩))

/-- Only a fault-free step is answered ok. -/
theorem State.hostStep_ok (h : s.hostStep = (.ok, t)) : step s = .next t ∧ t.fault = none := by
  rcases s.hostStep_cases with ⟨u, hu, hf, he⟩ | ⟨_, _, _, _, he⟩ | ⟨_, _, he⟩ | ⟨_, _, he⟩ <;> cases he.symm.trans h
  exact ⟨hu, hf⟩

theorem State.hostStep_ne_notFinished (s : State) : s.hostStep.1 ≠ .notFinished := by
  rcases s.hostStep_cases with ⟨_, _, _, he⟩ | ⟨_, _, _, _, he⟩ | ⟨_, _, he⟩ | ⟨_, _, he⟩ <;> simp [he]

end

/-- Settles O50: by the cases of the step. -/
theorem stepRequestAnswersStep : Obligations.StepRequestAnswersStep := by
  unfold Obligations.StepRequestAnswersStep
  exact fun s => ⟨fun t => State.hostStep_of_next, fun t r => State.hostStep_of_raised,
    fun r => State.hostStep_of_stopped, fun r => State.hostStep_of_refused, fun t => State.hostStep_ok⟩

/-! ### Runs -/

theorem State.hostStepN_succ (n : Nat) (s : State) :
    State.hostStepN (n + 1) s = if s.hostStep.1 = .ok then State.hostStepN n s.hostStep.2 else s.hostStep := by
  change (match s.hostStep with
    | (.ok, t) => State.hostStepN n t
    | answer => answer) = _
  split
  · next h => simp [h]
  · next h => rw [if_neg fun hok => h s.hostStep.2 (Prod.ext hok rfl)]

theorem State.hostStepN_of_ok {s : State} (h : s.hostStep.1 = .ok) (n : Nat) :
    State.hostStepN (n + 1) s = State.hostStepN n s.hostStep.2 := by
  rw [State.hostStepN_succ, if_pos h]

theorem State.hostStepN_of_not_ok {s : State} (h : s.hostStep.1 ≠ .ok) (n : Nat) :
    State.hostStepN (n + 1) s = s.hostStep := by
  rw [State.hostStepN_succ, if_neg h]

theorem State.hostStepN_one (s : State) : State.hostStepN 1 s = s.hostStep := by
  by_cases h : s.hostStep.1 = .ok
  · rw [State.hostStepN_of_ok h]; exact Prod.ext h.symm rfl
  · exact State.hostStepN_of_not_ok h 0

theorem State.hostRunUntil_succ (target : Int) (fuel : Nat) (s : State) :
    State.hostRunUntil target (fuel + 1) s =
      if s.hostStep.1 = .ok ∧ s.hostStep.2.pc ≠ target then State.hostRunUntil target fuel s.hostStep.2
      else s.hostStep := by
  change (match s.hostStep with
    | (.ok, t) => if t.pc = target then (Reply.ok, t) else State.hostRunUntil target fuel t
    | answer => answer) = _
  split
  · next h => simp [h]
  · next h => rw [if_neg fun hok => h s.hostStep.2 (Prod.ext hok.1 rfl)]

/-- A property that every step keeps is kept by the step request. -/
theorem State.hostStep_keeps {P : State → Prop} (hP : ∀ s t, P s → step s = .next t → P t) {s : State} (h : P s) :
    P s.hostStep.2 := by
  rcases s.hostStep_cases with ⟨t, ht, -, he⟩ | ⟨t, _, ht, -, he⟩ | ⟨_, -, he⟩ | ⟨_, -, he⟩ <;> rw [he]
  · exact hP s t h ht
  · exact hP s t h ht
  · exact h
  · exact h

/-- A property that every step keeps is kept by every run. -/
theorem State.hostRuns_keep {P : State → Prop} (hP : ∀ s t, P s → step s = .next t → P t) {s : State} (h : P s)
    (n : Nat) (target : Int) : P (State.hostStepN n s).2 ∧ P (State.hostRunUntil target n s).2 := by
  induction n generalizing s with
  | zero => exact ⟨h, h⟩
  | succ n ih =>
    have hs := State.hostStep_keeps hP h
    rw [State.hostStepN_succ, State.hostRunUntil_succ]
    constructor
    · split
      · exact (ih hs).1
      · exact hs
    · split
      · exact (ih hs).2
      · exact hs

theorem step_of_stopped {s : State} {r : FaultRecord} (hw : s.arch.wf = true) (hf : s.fault = some r) :
    step s = .fault (.stopped r) := by
  simp [step, hw, hf]

/-- Settles O12: the step request answers the record, and the other operations set or leave the run status. -/
theorem stoppedBlockHasNoStep : Obligations.StoppedBlockHasNoStep := by
  unfold Obligations.StoppedBlockHasNoStep
  intro s r hw hf
  have hstep := State.hostStep_of_stopped (step_of_stopped hw hf)
  refine ⟨step_of_stopped hw hf, hstep, rfl, fun cs => ?_, fun file reply t h => ?_, fun n target => ?_⟩
  · rw [State.hostSetButtons]
    split <;> exact hf
  · cases hws : file.words s.arch.N with
    | none => rw [State.hostLoad_of_bad hws] at h; cases h; exact hf
    | some ws => rw [State.hostLoad_of_words hws] at h; cases h; rfl
  · simp [State.hostStepN_succ, State.hostRunUntil_succ, hstep]

/-- Settles O51: by induction on the first count, one step request at a time. -/
theorem stepNIsSequential : Obligations.StepNIsSequential := by
  unfold Obligations.StepNIsSequential
  refine fun s => ⟨rfl, s.hostStepN_one, fun m n => ?_⟩
  induction m generalizing s with
  | zero => rw [Nat.zero_add]; rfl
  | succ m ih =>
    rw [Nat.add_right_comm]
    by_cases hok : s.hostStep.1 = .ok
    · rw [State.hostStepN_of_ok hok, State.hostStepN_of_ok hok, ih]
    · rw [State.hostStepN_of_not_ok hok, State.hostStepN_of_not_ok hok, if_neg hok]

/-- `n` steps answer ok with `t`, and are the first number of steps, at least one, that leaves `pc` at the target. -/
def FirstHit (target : Int) (s t : State) (n : Nat) : Prop :=
  State.hostStepN n s = (.ok, t) ∧ t.pc = target ∧ ∀ m, 0 < m → m < n → (State.hostStepN m s).2.pc ≠ target

theorem firstHit_one {target : Int} {s t : State} : FirstHit target s t 1 ↔ s.hostStep = (.ok, t) ∧ t.pc = target := by
  rw [FirstHit, State.hostStepN_one]
  exact ⟨fun ⟨hrun, ht, _⟩ => ⟨hrun, ht⟩, fun ⟨hrun, ht⟩ => ⟨hrun, ht, fun m _ _ => by omega⟩⟩

/-- A first hit after more than one step is a first hit after the first step, which misses. -/
theorem firstHit_succ {target : Int} {s t : State} {n : Nat} (hn : 0 < n) :
    FirstHit target s t (n + 1) ↔
      (s.hostStep.1 = .ok ∧ s.hostStep.2.pc ≠ target) ∧ FirstHit target s.hostStep.2 t n := by
  by_cases hok : s.hostStep.1 = .ok
  · rw [FirstHit, FirstHit, State.hostStepN_of_ok hok]
    constructor
    · rintro ⟨hrun, ht, hfirst⟩
      refine ⟨⟨hok, s.hostStepN_one ▸ hfirst 1 (by omega) (by omega)⟩, hrun, ht, fun m hm hmn => ?_⟩
      exact State.hostStepN_of_ok hok m ▸ hfirst (m + 1) (by omega) (by omega)
    · rintro ⟨⟨-, hpc⟩, hrun, ht, hfirst⟩
      refine ⟨hrun, ht, fun m hm hmn => ?_⟩
      obtain ⟨m, rfl⟩ : ∃ k, m = k + 1 := ⟨m - 1, by omega⟩
      rw [State.hostStepN_of_ok hok]
      rcases Nat.eq_zero_or_pos m with rfl | hm0
      · exact hpc
      · exact hfirst m hm0 (by omega)
  · rw [FirstHit, State.hostStepN_of_not_ok hok]
    exact iff_of_false (fun ⟨hrun, _⟩ => hok (congrArg Prod.fst hrun)) fun ⟨⟨h, _⟩, _⟩ => hok h

/-- Settles O52: by induction on the fuel; the first step returns, or the first hit comes after it. -/
theorem runUntilStopsAtFirstHit : Obligations.RunUntilStopsAtFirstHit := by
  unfold Obligations.RunUntilStopsAtFirstHit
  intro s t target fuel
  change _ ↔ ∃ n, 0 < n ∧ n ≤ fuel ∧ FirstHit target s t n
  induction fuel generalizing s with
  | zero => exact iff_of_false nofun fun ⟨n, hn, hle, _⟩ => by omega
  | succ fuel ih =>
    rw [State.hostRunUntil_succ]
    by_cases hgo : s.hostStep.1 = .ok ∧ s.hostStep.2.pc ≠ target
    · rw [if_pos hgo, ih]
      constructor
      · rintro ⟨n, hn, hle, hhit⟩
        exact ⟨n + 1, by omega, by omega, (firstHit_succ hn).2 ⟨hgo, hhit⟩⟩
      · rintro ⟨_ | _ | n, hn, hle, hhit⟩
        · omega
        · obtain ⟨hs, ht⟩ := firstHit_one.1 hhit
          exact absurd (hs ▸ ht) hgo.2
        · exact ⟨n + 1, by omega, by omega, ((firstHit_succ (by omega)).1 hhit).2⟩
    · rw [if_neg hgo]
      constructor
      · intro h
        exact ⟨1, by omega, by omega, firstHit_one.2 ⟨h, by simpa [h] using hgo⟩⟩
      · rintro ⟨_ | _ | n, hn, hle, hhit⟩
        · omega
        · exact (firstHit_one.1 hhit).1
        · exact absurd ((firstHit_succ (by omega)).1 hhit).1 hgo

/-! ### The Run Controller's cycles -/

theorem RunController.cycle_stepN_succ (s : State) (n : Nat) :
    (RunController.mk s (some (.stepN (n + 1)))).cycle =
      if s.hostStep.1 = .ok then (none, ⟨s.hostStep.2, some (.stepN n)⟩)
      else (some s.hostStep.1, ⟨s.hostStep.2, none⟩) := by
  change (match s.hostStep with
    | (.ok, t) => (none, RunController.mk t (some (.stepN n)))
    | (answer, t) => (some answer, ⟨t, none⟩)) = _
  split
  · next h => simp [h]
  · next hne h => rw [if_neg fun hok => hne (by rwa [h] at hok), h]

theorem RunController.cycle_runUntil (s : State) (target : Int) :
    (RunController.mk s (some (.runUntil target))).cycle =
      if s.hostStep.1 = .ok ∧ s.hostStep.2.pc ≠ target then (none, ⟨s.hostStep.2, some (.runUntil target)⟩)
      else (some s.hostStep.1, ⟨s.hostStep.2, none⟩) := by
  change (match s.hostStep with
    | (.ok, t) =>
      if t.pc = target then (some Reply.ok, RunController.mk t none) else (none, ⟨t, some (.runUntil target)⟩)
    | (answer, t) => (some answer, ⟨t, none⟩)) = _
  split
  · next h => simp [h]
  · next hne h => rw [if_neg fun hok => hne (by rw [← hok.1, h]), h]

theorem RunController.drive_of_returned {c d : RunController} {answer : Reply} (h : c.cycle = (some answer, d))
    (n : Nat) : RunController.drive (n + 1) c = (some answer, d) := by
  rw [RunController.drive, h]

theorem RunController.drive_of_running {c d : RunController} (h : c.cycle = (none, d)) (n : Nat) :
    RunController.drive (n + 1) c = RunController.drive n d := by
  rw [RunController.drive, h]

/-- Driving through step_n is step_n. -/
theorem RunController.drive_stepN (n : Nat) (s : State) :
    RunController.drive (n + 1) ⟨s, some (.stepN n)⟩ =
      (some (State.hostStepN n s).1, ⟨(State.hostStepN n s).2, none⟩) := by
  induction n generalizing s with
  | zero => rfl
  | succ n ih =>
    have hc := RunController.cycle_stepN_succ s n
    rw [State.hostStepN_succ]
    by_cases hok : s.hostStep.1 = .ok
    · rw [if_pos hok] at hc ⊢
      rw [RunController.drive_of_running hc, ih]
    · rw [if_neg hok] at hc ⊢
      rw [RunController.drive_of_returned hc]

/-- Driving through run_until is run_until. -/
theorem RunController.drive_runUntil (target : Int) (n : Nat) (s : State) :
    RunController.drive n ⟨s, some (.runUntil target)⟩ =
      if (State.hostRunUntil target n s).1 = .notFinished then
        (none, ⟨(State.hostRunUntil target n s).2, some (.runUntil target)⟩)
      else (some (State.hostRunUntil target n s).1, ⟨(State.hostRunUntil target n s).2, none⟩) := by
  induction n generalizing s with
  | zero => rfl
  | succ n ih =>
    have hc := RunController.cycle_runUntil s target
    rw [State.hostRunUntil_succ]
    by_cases hgo : s.hostStep.1 = .ok ∧ s.hostStep.2.pc ≠ target
    · rw [if_pos hgo] at hc ⊢
      rw [RunController.drive_of_running hc, ih]
    · rw [if_neg hgo] at hc ⊢
      rw [RunController.drive_of_returned hc, if_neg s.hostStep_ne_notFinished]

/-- A cycle of a running operation leaves the controller Running exactly where it has no reply. -/
theorem RunController.cycle_reply_iff {c : RunController} (h : c.phase = .running) :
    c.cycle.1 = none ↔ c.cycle.2.phase = .running := by
  obtain ⟨s, _ | op⟩ := c
  · cases h
  · match op with
    | .stepN 0 => simp [RunController.cycle, RunController.phase]
    | .stepN (n + 1) => rw [RunController.cycle_stepN_succ]; split <;> simp [RunController.phase]
    | .runUntil target => rw [RunController.cycle_runUntil]; split <;> simp [RunController.phase]

theorem RunController.drive_reply_iff {c : RunController} (h : c.phase = .running) (n : Nat) :
    (RunController.drive n c).1 = none ↔ (RunController.drive n c).2.phase = .running := by
  induction n generalizing c with
  | zero => simpa [RunController.drive] using h
  | succ n ih =>
    have hiff := RunController.cycle_reply_iff h
    rcases hc : c.cycle with ⟨_ | answer, d⟩ <;> rw [hc] at hiff
    · rw [RunController.drive_of_running hc]
      exact ih (hiff.1 rfl)
    · rw [RunController.drive_of_returned hc]
      exact hiff

/-- Settles O54: by induction on the cycles, for each run operation and for the phase. -/
theorem runControllerRunsOperations : Obligations.RunControllerRunsOperations := by
  unfold Obligations.RunControllerRunsOperations
  refine ⟨RunController.drive_stepN, fun n s target reply t h => ?_, fun n c d reply hc h => ?_⟩
  · simpa only [h] using RunController.drive_runUntil target n s
  · simpa only [h] using RunController.drive_reply_iff hc n

end Sys2Proof.Machine
end

section
/-!
Proofs of the statements about 10_state.md: the invariants (R49), where `pc` goes (R38), and what no step changes or reads
(R34, R41, R43, R44).
-/

namespace Sys2Proof.Machine

/-! ### The invariants -/

/-- Every shape of a next state keeps the invariants. -/
theorem Effect.inv {s t : State} {i : Option Instr} (h : Effect s i t) (hI : s.Inv) : t.Inv := by
  cases h with
  | raised r => exact hI.raise r
  | wrote ra v => exact (hI.writeReg ra v).advance
  | drew ra v imm => exact (hI.countDraw.writeReg ra v).advance
  | stored ra rb u hu => exact (hI.memWrite (State.readReg_lt hI rb) (State.readReg_lt hI ra) hu).advance
  | compared ra rb b => exact (hI.writeC (b2i b)).advance
  | moved target => exact hI.jumpTo target
  | linked l tgt => exact (hI.writeReg l _).jumpTo tgt

theorem step_inv {s t : State} (hI : s.Inv) (h : step s = .next t) : t.Inv := (step_effect h).inv hI

/-- Settles O20: a reserved register is created with its constant, which has `W` bits, and everything else with 0. -/
theorem creationMeetsInvariants : Obligations.CreationMeetsInvariants := by
  unfold Obligations.CreationMeetsInvariants
  intro D h
  exact {
    archWf := h
    regCount := by simp [State.create]
    regRange := fun v hv => by
      obtain ⟨i, -, rfl⟩ := List.mem_map.1 hv
      cases hl : D.reserved.lookup i with
      | none => exact Nat.two_pow_pos _
      | some c => exact (wf_reserved h (lookup_mem hl)).2
    reservedHeld := fun p hp => by
      have hlt : p.1 < D.R := (wf_reserved h hp).1
      simp [State.create, hlt, lookup_of_mem (wf_reserved_nodup h) (i := p.1) (c := p.2) hp]
    memForm := ⟨.nil, nofun⟩
    memRange := nofun
    buttonCount := List.length_replicate
    rowCount := List.length_replicate
    columnCount := fun row hr => by rw [List.eq_of_mem_replicate hr, List.length_replicate]; rfl
    displayRange := fun row hr v hv => by
      rw [List.eq_of_mem_replicate hr] at hv
      rw [List.eq_of_mem_replicate hv]
      exact Nat.two_pow_pos _
    storeRange := nofun }

/-- Settles O19: ARCH8 is well formed. -/
theorem resetMeetsInvariants : Obligations.ResetMeetsInvariants := by
  unfold Obligations.ResetMeetsInvariants
  exact creationMeetsInvariants resetArch (by decide)

/-- A full reset with any words as the store meets the invariants. -/
theorem State.Inv.cpuReset {s : State} (hI : s.Inv) {ws : List Word} (hws : ∀ w ∈ ws, w < 2 ^ s.arch.N) :
    { s.cpuReset with is := ws }.Inv :=
  { creationMeetsInvariants s.arch hI.archWf with storeRange := hws }

/-- Settles O21: each run by its steps, the other operations by what they replace. -/
theorem hostOperationsKeepInvariants : Obligations.HostOperationsKeepInvariants := by
  unfold Obligations.HostOperationsKeepInvariants
  intro s hI
  refine ⟨hI.cpuReset hI.storeRange, fun file => ?_, fun cs => ?_, State.hostRuns_keep (fun _ _ => step_inv) hI⟩
  · cases file with
    | missing => exact hI
    | tokens ts =>
      cases hw : (LoadFile.tokens ts).words s.arch.N with
      | none => rw [State.hostLoad_of_bad hw]; exact hI
      | some ws =>
        rw [State.hostLoad_of_words hw]
        exact hI.cpuReset (LoadFile.words_tokens_eq_some.1 hw).2
  · rw [State.hostSetButtons]
    split
    · next hcs => exact { hI with buttonCount := (List.length_map _).trans hcs.1 }
    · exact hI

/-! ### Progress -/

theorem checkReg_answers {s : State} {f : RegField} {a : Nat} {k : Host.Outcome State Fault Refusal}
    (hk : ∃ t, k = .next t) : ∃ t, checkReg s f a k = .next t := by
  unfold checkReg
  split
  · exact hk
  · exact ⟨_, rfl⟩

/-- Every instruction that the variant has answers a next state. -/
theorem exec_answers {s : State} {i : Instr} (hjal : i.operation = .jal → s.arch.link.isSome)
    (hcmp : i.operation = .cmp → s.arch.cmpRel.isSome) : ∃ t, exec i s = .next t := by
  cases i with
  | add ra rb | sub ra rb | mov ra rb => exact checkReg_answers (checkReg_answers ⟨_, rfl⟩)
  | li ra imm | beq ra imm | bne ra imm | bgt ra imm | jr ra rb => exact checkReg_answers ⟨_, rfl⟩
  | rand ra imm =>
    refine checkReg_answers ?_
    unfold randWith
    split
    · exact ⟨_, rfl⟩
    · exact ⟨_, rfl⟩
  | lw ra rb | sw ra rb =>
    refine checkReg_answers (checkReg_answers ?_)
    split
    · exact ⟨_, rfl⟩
    · exact ⟨_, rfl⟩
  | cmp ra rb =>
    obtain ⟨rel, hrel⟩ := Option.isSome_iff_exists.1 (hcmp rfl)
    exact checkReg_answers (by rw [hrel]; exact ⟨_, rfl⟩)
  | j tgt => exact ⟨_, rfl⟩
  | jal tgt =>
    obtain ⟨l, hl⟩ := Option.isSome_iff_exists.1 (hjal rfl)
    exact ⟨_, by rw [exec, execJal, hl]⟩

/-- A block that may step does. -/
theorem step_answers {s : State} (hs : s.mayStep) : ∃ t, step s = .next t := by
  cases hw : s.fetch with
  | none => exact ⟨_, step_of_fetch_none hs hw⟩
  | some word =>
    cases hd : decodeInstr s.arch word with
    | none => exact ⟨_, step_of_unrecognized hs hw hd⟩
    | some i =>
      obtain ⟨-, hjal, hcmp⟩ := wf_operation_needs hs.1 (decodeInstr_operation_mem hs.1 hd)
      rw [step_of_current hs (Option.bind_eq_some_iff.2 ⟨word, hw, hd⟩)]
      exact exec_answers hjal hcmp

/-- Settles O17: decoding is total, and a well-formed descriptor has what its operations need. -/
theorem blockAlwaysStepsWhenItMay : Obligations.BlockAlwaysStepsWhenItMay := by
  unfold Obligations.BlockAlwaysStepsWhenItMay
  intro s hI hf
  obtain ⟨t, ht⟩ := step_answers ⟨hI.archWf, hf⟩
  exact ⟨t, ht, step_inv hI ht⟩

/-! ### The program counter -/

@[simp] theorem State.compare_eq {s : State} {ra : Nat} :
    s.compare .eq ra = true ↔ s.readReg ra = s.readReg s.arch.C := beq_iff_eq

@[simp] theorem State.compare_ne {s : State} {ra : Nat} :
    s.compare .ne ra = true ↔ s.readReg ra ≠ s.readReg s.arch.C := bne_iff_ne

@[simp] theorem State.compare_gt {s : State} {ra : Nat} :
    s.compare .gt ra = true ↔ s.readReg ra > s.readReg s.arch.C := decide_eq_true_iff

/-- A step that raises a fault leaves `pc`. -/
theorem step_pc_of_fault {s t : State} (h : step s = .next t) (hf : t.fault ≠ none) : t.pc = s.pc := by
  obtain ⟨-, r, rfl⟩ := faultsArePrecise.1 s t h hf
  rfl

/-- A fault-free step executes its instruction without a fault, or skips an unrecognized word. -/
theorem step_faultFree {s t : State} (h : step s = .next t) (hf : t.fault = none) :
    (∃ i, s.current = some i ∧ t.pc = nextPc s i) ∨ s.current = none ∧ t.pc = s.pc + 1 := by
  obtain ⟨-, hnone, hc⟩ := step_next h
  rcases cycle_next hc with ⟨-, rfl⟩ | ⟨word, hw, hd, rfl⟩ | ⟨word, i, hw, hd, he⟩
  · cases hf
  · refine .inr ⟨current_eq_none.2 (.inr ⟨word, hw, hd⟩), ?_⟩
    unfold State.unrecognizedWord at hf ⊢
    split at hf
    · cases hf
    · rfl
  · refine .inl ⟨i, Option.bind_eq_some_iff.2 ⟨word, hw, hd⟩, ?_⟩
    cases hfa : faultAt s i with
    | none => exact (exec_of_faultAt_none hfa he).2
    | some r =>
      cases (exec_of_faultAt hfa).symm.trans he
      cases hf

theorem State.hostSetButtons_pc (s : State) (cs : List Char) : (s.hostSetButtons cs).2.pc = s.pc := by
  rw [State.hostSetButtons]
  split <;> rfl

/-- Settles O23: by `nextPc` for an instruction, and by the replies of load. -/
theorem programCounterMoves : Obligations.ProgramCounterMoves := by
  unfold Obligations.ProgramCounterMoves
  refine ⟨fun s t h hf => ?_, fun s => ⟨s.hostSetButtons_pc, rfl, fun file reply t h => ?_⟩,
    fun s t => step_pc_of_fault⟩
  · rcases step_faultFree h hf with ⟨i, hc, hpc⟩ | ⟨hc, hpc⟩
    · rw [hpc, hc]
      cases i with
      | beq ra imm | bne ra imm | bgt ra imm => simp [nextPc]
      | _ => rfl
    · rw [hpc, hc]
  · cases hw : file.words s.arch.N with
    | none => rw [State.hostLoad_of_bad hw] at h; cases h; rfl
    | some ws => rw [State.hostLoad_of_words hw] at h; cases h; rfl

/-- From a `pc` that is not negative only a taken branch leads to a negative one. -/
theorem branch_of_nextPc_neg {s : State} {i : Instr} (hpc : 0 ≤ s.pc) (hneg : nextPc s i < 0) :
    ∃ rel ra imm, Instr.branchOf i = some (rel, ra, imm) ∧ s.compare rel ra = true ∧ nextPc s i = s.pc + 1 + imm := by
  have taken {rel : CmpRel} {ra : Nat} {imm : Int}
      (h : (if s.compare rel ra then s.pc + 1 + imm else s.pc + 1) < 0) : s.compare rel ra = true := by
    by_contra hc
    rw [if_neg hc] at h
    omega
  cases i with
  | beq ra imm | bne ra imm | bgt ra imm => exact ⟨_, ra, imm, rfl, taken hneg, if_pos (taken hneg)⟩
  | _ => simp only [nextPc] at hneg; omega

/-- Settles O18: every shape of a next state keeps the invariants, and `nextPc` is negative only for a taken branch. -/
theorem stepKeepsInvariants : Obligations.StepKeepsInvariants := by
  unfold Obligations.StepKeepsInvariants
  refine ⟨fun s t hI h => ⟨step_inv hI h, fun hpc hneg => ?_⟩, fun s => Int.le_refl 0, fun D => Int.le_refl 0⟩
  by_cases hf : t.fault = none
  · rcases step_faultFree h hf with ⟨i, hc, hnext⟩ | ⟨-, hnext⟩
    · rw [hnext] at hneg ⊢
      obtain ⟨rel, ra, imm, hb, hcmp, htgt⟩ := branch_of_nextPc_neg hpc hneg
      exact ⟨i, rel, ra, imm, hc, hb, hcmp, htgt⟩
    · omega
  · have := step_pc_of_fault h hf
    omega

/-! ### What no step changes -/

/-- Settles O24: by the shapes of a next state, for each step of a run. -/
theorem runsKeepStoreAndLatches : Obligations.RunsKeepStoreAndLatches := by
  unfold Obligations.RunsKeepStoreAndLatches
  have keep (s t : State) (h : step s = .next t) : t.is = s.is ∧ t.buttons = s.buttons ∧ t.arch = s.arch := by
    obtain ⟨ha, hb, his⟩ := (step_effect h).keeps
    exact ⟨his, hb, ha⟩
  refine ⟨keep, fun n target s t reply h => ?_⟩
  have runs := State.hostRuns_keep (P := fun u => u.is = s.is ∧ u.buttons = s.buttons ∧ u.arch = s.arch)
    (fun u v ⟨his, hb, ha⟩ huv => by
      obtain ⟨his', hb', ha'⟩ := keep u v huv
      exact ⟨his'.trans his, hb'.trans hb, ha'.trans ha⟩) ⟨rfl, rfl, rfl⟩ n target
  rcases h with h | h
  · simpa only [h] using runs.1
  · simpa only [h] using runs.2

theorem step_arch {s t : State} (h : step s = .next t) : t.arch = s.arch := (step_effect h).keeps.1

theorem State.hostSetButtons_arch (s : State) (cs : List Char) : (s.hostSetButtons cs).2.arch = s.arch := by
  rw [State.hostSetButtons]
  split <;> rfl

theorem State.hostLoad_arch (s : State) (file : LoadFile) : (s.hostLoad file).2.arch = s.arch := by
  rw [State.hostLoad]
  split <;> rfl

/-- Settles O26: a reserved register reads its constant in every state of the descriptor, and nothing changes that. -/
theorem reservedRegistersConstant : Obligations.ReservedRegistersConstant := by
  unfold Obligations.ReservedRegistersConstant
  intro s i c hc
  have reads {t : State} (ht : t.arch = s.arch) : t.readReg i = c := State.readReg_reserved (ht ▸ hc)
  refine ⟨reads rfl, fun t ht => reads (step_arch ht), reads rfl, fun cs => reads (s.hostSetButtons_arch cs),
    fun file => reads (s.hostLoad_arch file), fun n target => ?_⟩
  have runs := State.hostRuns_keep (P := fun u => u.arch = s.arch)
    (fun u v hu huv => (step_arch huv).trans hu) rfl n target
  exact ⟨reads runs.1, reads runs.2⟩

/-- Under `drop` a register write leaves the comparison register (R33). -/
theorem State.readReg_C_writeReg {s : State} (hd : s.arch.cExplicitWrite = .drop) (i : Nat) (v : Int) :
    (s.writeReg i v).readReg s.arch.C = s.readReg s.arch.C := by
  by_cases hi : i = s.arch.C
  · rw [State.writeReg, if_pos (by simp [dropsWrite, hi, hd])]
  · exact s.readReg_writeReg_ne (Ne.symm hi) v

/-- The value that cmp writes fits every register (R13). -/
theorem trunc_b2i {W : Nat} (hW : 1 ≤ W) (b : Bool) : trunc W (b2i b) = if b then 1 else 0 := by
  have h2 : 2 ^ 1 ≤ 2 ^ W := Nat.pow_le_pow_right (by omega) hW
  cases b with
  | false => exact trunc_of_lt (v := 0) (by omega)
  | true => exact trunc_of_lt (v := 1) (by omega)

/-- Settles O27: by the shapes of a next state; only cmp's bypasses the register-write primitive. -/
theorem onlyCmpWritesCUnderDrop : Obligations.OnlyCmpWritesCUnderDrop := by
  unfold Obligations.OnlyCmpWritesCUnderDrop
  intro s t i hI hd h
  have he := exec_effect h
  rw [he.keeps.1]
  constructor
  · intro hi
    cases he with
    | raised r => rfl
    | wrote ra v => exact State.readReg_C_writeReg hd ra v
    | drew ra v imm => exact State.readReg_C_writeReg (s := s.countDraw) hd ra v
    | stored ra rb u hu =>
      obtain ⟨ha, -, hx, -⟩ := State.memWrite_frame hu
      exact State.readReg_congr ha hx _
    | compared ra rb b hc => cases hc; exact absurd rfl hi
    | moved target => rfl
    | linked l tgt => exact State.readReg_C_writeReg hd l _
  · rintro ra rb rfl hra
    replace h := (checkReg_ok hra .ra _).symm.trans h
    split at h <;> cases h
    rw [State.readReg_advance, State.readReg_writeC hI.archWf hI.regCount, if_pos rfl,
      trunc_b2i (wf_one_le_W hI.archWf)]
    split <;> omega

/-! ### The display is never read -/

/-- The state with another display. -/
def State.withDisplay (s : State) (grid : List (List Nat)) : State := { s with display := grid }

/-- The second outcome is the first but for the display of its next state. -/
def SameButDisplay (o o' : Host.Outcome State Fault Refusal) : Prop :=
  ∀ t, o = .next t → ∃ grid, o' = .next (t.withDisplay grid)

section
variable (s : State) (grid : List (List Nat))

@[simp] theorem State.withDisplay_arch : (s.withDisplay grid).arch = s.arch := rfl
@[simp] theorem State.withDisplay_draws : (s.withDisplay grid).draws = s.draws := rfl
@[simp] theorem State.withDisplay_readReg (i : Nat) : (s.withDisplay grid).readReg i = s.readReg i := rfl
@[simp] theorem State.withDisplay_effectiveAddress (i : Nat) :
    (s.withDisplay grid).effectiveAddress i = s.effectiveAddress i := rfl
@[simp] theorem State.withDisplay_memRead (a : Nat) : (s.withDisplay grid).memRead a = s.memRead a := rfl

theorem sameButDisplay_next (t : State) : SameButDisplay (.next t) (.next (t.withDisplay grid)) := by
  rintro _ ⟨⟩
  exact ⟨grid, rfl⟩

theorem sameButDisplay_refused (r : Refusal) (o : Host.Outcome State Fault Refusal) : SameButDisplay (.refused r) o :=
  fun _ h => nomatch h

theorem State.writeReg_withDisplay (i : Nat) (v : Int) :
    (s.withDisplay grid).writeReg i v = (s.writeReg i v).withDisplay grid := by
  cases h : dropsWrite s.arch i with
  | true => rw [State.writeReg, State.writeReg, if_pos h, if_pos (c := dropsWrite (s.withDisplay grid).arch i = true) h]
  | false => simp only [State.writeReg, State.withDisplay, h]; rfl

theorem State.unrecognizedWord_withDisplay (word : Word) :
    (s.withDisplay grid).unrecognizedWord word = (s.unrecognizedWord word).withDisplay grid := by
  simp only [State.unrecognizedWord, State.withDisplay_arch]
  cases s.arch.unrecognized <;> rfl

theorem checkReg_sameButDisplay {f : RegField} {a : Nat} {k k' : Host.Outcome State Fault Refusal}
    (h : SameButDisplay k k') : SameButDisplay (checkReg s f a k) (checkReg (s.withDisplay grid) f a k') := by
  unfold checkReg
  by_cases ha : a < s.arch.R
  · rw [if_pos ha, if_pos (c := a < (s.withDisplay grid).arch.R) ha]
    exact h
  · rw [if_neg ha, if_neg (c := a < (s.withDisplay grid).arch.R) ha]
    exact sameButDisplay_next grid _

theorem writeBack_sameButDisplay (a : Nat) (v : Int) :
    SameButDisplay (s.writeBack a v) ((s.withDisplay grid).writeBack a v) := by
  rw [State.writeBack, State.writeBack, State.writeReg_withDisplay]
  exact sameButDisplay_next grid _

/-- A store reads the display nowhere: it fails alike, and leaves the same but for the display. -/
theorem State.memWrite_withDisplay (a v : Nat) :
    (s.memWrite a v = none ∧ (s.withDisplay grid).memWrite a v = none) ∨
    ∃ u grid', s.memWrite a v = some u ∧ (s.withDisplay grid).memWrite a v = some (u.withDisplay grid') := by
  rcases s.memWrite_cases a v with ⟨h, he⟩ | ⟨h, h', he⟩ | ⟨h, h', he⟩
  · exact .inr ⟨_, _, he, if_pos h⟩
  · exact .inl ⟨he, State.memWrite_eq_none.2 ⟨h, h'⟩⟩
  · refine .inr ⟨_, grid, he, ?_⟩
    rcases (s.withDisplay grid).memWrite_cases a v with ⟨hlt, -⟩ | ⟨-, hlt, -⟩ | ⟨-, -, he'⟩
    · exact absurd hlt (Nat.not_lt.2 h)
    · exact absurd hlt (Nat.not_lt.2 h')
    · exact he'

theorem exec_sameButDisplay (i : Instr) : SameButDisplay (exec i s) (exec i (s.withDisplay grid)) := by
  cases i with
  | add ra rb | sub ra rb | mov ra rb =>
    exact checkReg_sameButDisplay s grid (checkReg_sameButDisplay s grid (writeBack_sameButDisplay s grid ra _))
  | li ra imm => exact checkReg_sameButDisplay s grid (writeBack_sameButDisplay s grid ra imm)
  | rand ra imm =>
    refine checkReg_sameButDisplay s grid ?_
    simp only [randWith, State.withDisplay_arch, State.withDisplay_draws]
    cases hd : drawnValue s.arch imm (Config.freeDraw s.draws) with
    | none => exact sameButDisplay_next grid _
    | some v => exact writeBack_sameButDisplay s.countDraw grid ra v
  | lw ra rb =>
    refine checkReg_sameButDisplay s grid (checkReg_sameButDisplay s grid ?_)
    simp only [State.withDisplay_memRead, State.withDisplay_effectiveAddress]
    cases hm : s.memRead (s.effectiveAddress rb) with
    | none => exact sameButDisplay_next grid _
    | some v => exact writeBack_sameButDisplay s grid ra v
  | sw ra rb =>
    refine checkReg_sameButDisplay s grid (checkReg_sameButDisplay s grid ?_)
    simp only [State.withDisplay_readReg, State.withDisplay_effectiveAddress]
    rcases s.memWrite_withDisplay grid (s.effectiveAddress rb) (s.readReg ra) with ⟨h, h'⟩ | ⟨u, grid', h, h'⟩
    · rw [h, h']
      exact sameButDisplay_next grid _
    · rw [h, h']
      exact sameButDisplay_next grid' _
  | cmp ra rb =>
    refine checkReg_sameButDisplay s grid ?_
    simp only [State.withDisplay_arch]
    cases hr : s.arch.cmpRel with
    | none => exact sameButDisplay_refused _ _
    | some rel => exact sameButDisplay_next grid _
  | beq ra imm | bne ra imm | bgt ra imm | jr ra rb => exact checkReg_sameButDisplay s grid (sameButDisplay_next grid _)
  | j tgt => exact sameButDisplay_next grid _
  | jal tgt =>
    simp only [exec, execJal, State.withDisplay_arch, State.writeReg_withDisplay]
    cases hl : s.arch.link with
    | none => exact sameButDisplay_refused _ _
    | some l => exact sameButDisplay_next grid _

end

/-- Settles O25: fetch and decode read no display, and each instruction's outcome is the same but for it. -/
theorem displayNeverRead : Obligations.DisplayNeverRead := by
  unfold Obligations.DisplayNeverRead
  intro s t grid h
  obtain ⟨hw, hf, hc⟩ := step_next h
  have hs : (s.withDisplay grid).mayStep := ⟨hw, hf⟩
  rcases cycle_next hc with ⟨hfetch, rfl⟩ | ⟨word, hword, hd, rfl⟩ | ⟨word, i, hword, hd, he⟩
  · exact ⟨grid, step_of_fetch_none hs hfetch⟩
  · refine ⟨grid, (step_of_unrecognized hs hword hd).trans ?_⟩
    rw [State.unrecognizedWord_withDisplay]; rfl
  · obtain ⟨grid', he'⟩ := exec_sameButDisplay s grid i t he
    exact ⟨grid', (step_of_current hs (Option.bind_eq_some_iff.2 ⟨word, hword, hd⟩)).trans he'⟩

end Sys2Proof.Machine
end

section
/-!
Proofs of the statements about 40_arithmetic.md to 43_jumps.md and 20_memory.md section 4: what each instruction writes and
what it leaves.
-/

namespace Sys2Proof.Machine

/-! ### Instructions that only write a register -/

section
variable {s : State} {ra rb : Nat}

theorem exec_add (ha : ra < s.arch.R) (hb : rb < s.arch.R) :
    exec (.add ra rb) s = s.writeBack ra ((s.readReg ra : Int) + s.readReg rb) := checkRegs_ok ha hb _

theorem exec_sub (ha : ra < s.arch.R) (hb : rb < s.arch.R) :
    exec (.sub ra rb) s = s.writeBack ra ((s.readReg ra : Int) - s.readReg rb) := checkRegs_ok ha hb _

theorem exec_li (ha : ra < s.arch.R) (imm : Int) : exec (.li ra imm) s = s.writeBack ra imm := checkReg_ok ha _ _

theorem exec_mov (ha : ra < s.arch.R) (hb : rb < s.arch.R) : exec (.mov ra rb) s = s.writeBack ra (s.readReg rb) :=
  checkRegs_ok ha hb _

theorem exec_rand (ha : ra < s.arch.R) (imm : Int) :
    exec (.rand ra imm) s = randWith (Config.freeDraw s.draws) ra imm s := checkReg_ok ha _ _

theorem exec_lw {v : Nat} (ha : ra < s.arch.R) (hb : rb < s.arch.R) (hv : s.memRead (s.readReg rb) = some v) :
    exec (.lw ra rb) s = s.writeBack ra v := by
  refine (checkRegs_ok ha hb _).trans ?_
  rw [State.effectiveAddress, hv]

theorem exec_sw {u : State} (ha : ra < s.arch.R) (hb : rb < s.arch.R)
    (hu : s.memWrite (s.readReg rb) (s.readReg ra) = some u) : exec (.sw ra rb) s = .next u.advance := by
  refine (checkRegs_ok ha hb _).trans ?_
  rw [State.effectiveAddress, hu]

theorem exec_cmp {rel : CmpRel} (ha : ra < s.arch.R) (hr : s.arch.cmpRel = some rel) :
    exec (.cmp ra rb) s = .next (s.writeC (b2i (s.compare rel ra))).advance := by
  refine (checkReg_ok ha _ _).trans ?_
  rw [hr]

theorem exec_jr (ha : ra < s.arch.R) : exec (.jr ra rb) s = .next (s.jumpTo (s.readReg ra)) := checkReg_ok ha _ _

theorem exec_jal {l : Nat} (hl : s.arch.link = some l) (tgt : Nat) :
    exec (.jal tgt) s = .next ((s.writeReg l (s.pc + 1)).jumpTo tgt) := by
  rw [exec, execJal, hl]

/-- An instruction whose one effect is a register write: the write, `pc + 1`, and the frame. -/
theorem State.writeBack_result (ha : ra < s.x.length) (v : Int) :
    ∃ t, s.writeBack ra v = .next t ∧ RegWritten s t ra v ∧
      t.pc = s.pc + 1 ∧ SameMemory s t ∧ SameDisplay s t ∧ SameHostSide s t ∧ t.draws = s.draws := by
  obtain ⟨hmem, hdisp, hhost⟩ := s.writeReg_frame ra v
  exact ⟨_, rfl, State.writeReg_regWritten ha v, by simp, hmem, hdisp, hhost, by simp⟩

/-- The same for a value that fits a register, which is read back as it is. -/
theorem State.writeBack_nat_result {v : Nat} (ha : ra < s.x.length) (hv : v < 2 ^ s.arch.W) :
    ∃ t, s.writeBack ra v = .next t ∧
      (∀ j, t.readReg j = if j = ra ∧ dropsWrite s.arch ra = false then v else s.readReg j) ∧
      t.pc = s.pc + 1 ∧ SameMemory s t ∧ SameDisplay s t ∧ SameHostSide s t ∧ t.draws = s.draws := by
  obtain ⟨t, ht, hreg, hframe⟩ := State.writeBack_result ha (v : Int)
  rw [RegWritten, trunc_of_lt hv] at hreg
  exact ⟨t, ht, hreg, hframe⟩

end

/-- Settles O28: add is one register write. -/
theorem addResult : Obligations.AddResult := by
  unfold Obligations.AddResult
  intro s ra rb hlen ha hb
  rw [exec_add ha hb]
  exact State.writeBack_result (hlen ▸ ha) _

/-- Settles O29: sub is one register write. -/
theorem subResult : Obligations.SubResult := by
  unfold Obligations.SubResult
  intro s ra rb hlen ha hb
  rw [exec_sub ha hb]
  exact State.writeBack_result (hlen ▸ ha) _

/-- Settles O31: li is one register write. -/
theorem liResult : Obligations.LiResult := by
  unfold Obligations.LiResult
  intro s ra imm hlen ha
  rw [exec_li ha]
  exact State.writeBack_result (hlen ▸ ha) _

/-- Settles O32: mov is one register write, of a register's value. -/
theorem movResult : Obligations.MovResult := by
  unfold Obligations.MovResult
  intro s ra rb hI ha hb
  rw [exec_mov ha hb]
  exact State.writeBack_nat_result (hI.regCount ▸ ha) (State.readReg_lt hI rb)

/-- Settles O36: a load is one register write, of what the address reads. -/
theorem lwResult : Obligations.LwResult := by
  unfold Obligations.LwResult
  intro s ra rb hI ha hb haddr
  have hread : s.memRead (s.readReg rb) =
      some (if s.readReg rb < s.arch.B then s.button (s.readReg rb) else Memory.read s.mem (s.readReg rb)) := by
    split
    · next hB => exact State.memRead_of_lt_B hB
    · next hB => exact State.memRead_of_T_le hI.archWf (haddr.resolve_left hB)
  rw [exec_lw ha hb hread]
  exact State.writeBack_nat_result (hI.regCount ▸ ha) (State.memRead_lt hI hread)

/-! ### Random draws -/

/-- The values drawn are those of the mode's set (R145). -/
theorem drawSet_iff_drawn {D : Descriptor} {imm : Int} (h : D.randMode = .bound → 0 ≤ imm) (v : Nat) :
    drawSet D imm v ↔ ∃ u, drawnValue D imm u = some v := by
  cases hm : D.randMode with
  | none =>
    simp only [drawSet, drawnValue, hm, Option.some.injEq]
    exact ⟨fun hv => ⟨v, Nat.mod_eq_of_lt hv⟩, fun ⟨u, hu⟩ => hu ▸ Nat.mod_lt _ (Nat.two_pow_pos _)⟩
  | mask =>
    simp only [drawSet, drawnValue, hm, Option.some.injEq]
    exact ⟨fun ⟨u, hu, hv⟩ => ⟨u, by rw [Nat.mod_eq_of_lt hu, hv]⟩,
      fun ⟨u, hv⟩ => ⟨u % 2 ^ D.W, Nat.mod_lt _ (Nat.two_pow_pos _), hv.symm⟩⟩
  | bound =>
    have h0 := h hm
    simp only [drawSet, drawnValue, hm, if_neg (Int.not_lt.2 h0), Option.some.injEq]
    constructor
    · exact fun hv => ⟨v, Nat.mod_eq_of_lt (by omega)⟩
    · rintro ⟨u, rfl⟩
      have hle : u % (imm.toNat + 1) ≤ imm.toNat := Nat.le_of_lt_succ (Nat.mod_lt u imm.toNat.succ_pos)
      exact (Int.ofNat_le.2 hle).trans_eq (Int.toNat_of_nonneg h0)

theorem randWith_of_drawn {s : State} {u ra : Nat} {imm : Int} {v : Nat} (h : drawnValue s.arch imm u = some v) :
    randWith u ra imm s = s.countDraw.writeBack ra v := by
  rw [randWith, h]

/-- Settles O33: the draw is a value of the set, and rand writes it. -/
theorem randResult : Obligations.RandResult := by
  unfold Obligations.RandResult
  intro s ra imm hlen ha hbound
  cases hv : drawnValue s.arch imm (Config.freeDraw s.draws) with
  | none =>
    obtain ⟨hm, hneg⟩ := drawnValue_eq_none.1 hv
    exact absurd (hbound hm) (Int.not_le.2 hneg)
  | some v =>
    rw [exec_rand ha, randWith_of_drawn hv]
    obtain ⟨t, ht, hframe⟩ := State.writeBack_result (s := s.countDraw) (hlen ▸ ha) (v : Int)
    exact ⟨t, v, ht, (drawSet_iff_drawn hbound v).2 ⟨_, hv⟩, hframe⟩

theorem State.writeReg_countDraw (s : State) (i : Nat) (v : Int) :
    s.countDraw.writeReg i v = (s.writeReg i v).countDraw :=
  (apply_ite State.countDraw (dropsWrite s.arch i = true) s (s.setReg i v)).symm

/-- A register write changes the register file alone. -/
theorem State.writeReg_eq (s : State) (i : Nat) (v : Int) : s.writeReg i v = { s with x := (s.writeReg i v).x } := by
  unfold State.writeReg
  split <;> rfl

/-- Settles O34: by the set of drawn values, and the first fault of rand. -/
theorem randAdmitsExactlyItsSet : Obligations.RandAdmitsExactlyItsSet := by
  unfold Obligations.RandAdmitsExactlyItsSet
  intro s ra imm ha
  refine ⟨fun hbound v => ?_, fun hm hneg => exec_of_faultAt ?_⟩
  · rw [drawSet_iff_drawn hbound]
    refine exists_congr fun u => ⟨fun hv => ⟨?_, hv⟩, And.right⟩
    rw [randWith_of_drawn hv, State.writeBack, State.writeReg_countDraw]
    exact congrArg (fun t : State => Host.Outcome.next t.countDraw.advance) (s.writeReg_eq ra v)
  · simp [faultAt, Instr.usedRa, Instr.usedRb, regFault_of_lt ha, ownFault, hm, hneg]

/-! ### Stores, and the loads after them -/

/-- Settles O37: the address names one display cell or one data-memory cell. -/
theorem swResult : Obligations.SwResult := by
  unfold Obligations.SwResult
  intro s ra rb hI ha hb haddr
  rcases s.memWrite_cases (s.readReg rb) (s.readReg ra) with ⟨hM, hu⟩ | ⟨hM, hT, -⟩ | ⟨hM, hT, hu⟩
  · obtain ⟨-, hMT, -⟩ := wf_io hI.archWf
    obtain ⟨hrow, hcol⟩ := div_mod_lt hM
    refine ⟨_, exec_sw ha hb hu, fun a => ?_, fun row col => ?_, rfl, fun j => rfl, ⟨rfl, rfl, rfl, rfl⟩, rfl⟩
    · rw [if_neg fun h => absurd (hM.trans_le hMT) (Nat.not_lt.2 h.1)]; rfl
    · exact (State.displayCell_setDisplay hI hrow hcol (s.readReg ra) row col).trans (by simp [hM])
  · exact absurd haddr (by omega)
  · refine ⟨_, exec_sw ha hb hu, fun a => ?_, fun row col => ?_, rfl, fun j => rfl, ⟨rfl, rfl, rfl, rfl⟩, rfl⟩
    · exact (Memory.read_write hI.memForm (s.readReg rb) (s.readReg ra) a).trans (by simp [hT])
    · rw [if_neg fun h => absurd h.1 (Nat.not_lt.2 hM)]; rfl

/-- A step that does not store to a data-memory cell leaves it. -/
theorem step_keeps_cell {s t : State} {a : Nat} (hI : s.Inv) (ha : s.arch.T ≤ a) (hno : ¬ s.storesTo a)
    (h : step s = .next t) : Memory.read t.mem a = Memory.read s.mem a := by
  rcases (step_effect h).sameData_or_stored with ⟨hmem, -⟩ | ⟨ra, rb, u, hi, hu, rfl⟩
  · exact hmem a
  · have hne : a ≠ s.effectiveAddress rb := fun he => hno ⟨ra, rb, hi, he.symm, ha⟩
    rcases Nat.lt_or_ge (s.effectiveAddress rb) (s.arch.M * s.arch.M) with hM | hM
    · exact (State.memWrite_display_frame hI hM hu).1 a
    · exact (State.memWrite_memory_frame hI hM hu).2 a hne

/-- A run that does not store to a data-memory cell leaves it, the descriptor and the invariants. -/
theorem State.runsWithoutStore_keeps {a n : Nat} {s u : State} (hI : s.Inv) (ha : s.arch.T ≤ a)
    (h : State.runsWithoutStore a n s u) : u.Inv ∧ u.arch = s.arch ∧ Memory.read u.mem a = Memory.read s.mem a := by
  induction n generalizing s with
  | zero => cases h; exact ⟨hI, rfl, rfl⟩
  | succ n ih =>
    obtain ⟨hno, t, ht, hrun⟩ := h
    have harch := step_arch ht
    obtain ⟨huI, hua, hum⟩ := ih (step_inv hI ht) (by rwa [harch]) hrun
    exact ⟨huI, hua.trans harch, hum.trans (step_keeps_cell hI ha hno ht)⟩

/-- A load of a data-memory cell into a register whose write lands. -/
theorem exec_lw_cell {D : Descriptor} {u : State} {rd rx : Nat} (hI : u.Inv) (hD : u.arch = D) (hd : rd < D.R)
    (hx : rx < D.R) (hT : D.T ≤ u.readReg rx) (hdrop : dropsWrite D rd = false) :
    ∃ v, exec (.lw rd rx) u = .next v ∧ v.readReg rd = Memory.read u.mem (u.readReg rx) := by
  subst hD
  have hread := State.memRead_of_T_le hI.archWf hT
  rw [exec_lw hd hx hread]
  obtain ⟨t, ht, hreg, -⟩ := State.writeBack_nat_result (hI.regCount ▸ hd) (State.memRead_lt hI hread)
  exact ⟨t, ht, by rw [hreg, if_pos ⟨rfl, hdrop⟩]⟩

/-- Settles O39: the store writes the cell, and a run that does not store there leaves it. -/
theorem loadReturnsLastStore : Obligations.LoadReturnsLastStore := by
  unfold Obligations.LoadReturnsLastStore
  constructor
  · intro s ra rb hI ha hb hT
    obtain ⟨t, ht, hmem, -, -, hregs, ⟨harch, -⟩, -⟩ := swResult s ra rb hI ha hb (.inr hT)
    refine ⟨t, ht, hregs, fun n u rd rx hrun hd hx haddr hdrop => ?_⟩
    obtain ⟨huI, hua, hum⟩ := State.runsWithoutStore_keeps ((exec_effect ht).inv hI) (by rwa [harch]) hrun
    obtain ⟨v, hv, hread⟩ := exec_lw_cell huI (hua.trans harch) hd hx (by rwa [haddr]) hdrop
    exact ⟨v, hv, by rw [hread, haddr, hum, hmem, if_pos ⟨hT, rfl⟩]⟩
  · intro s n u rd rx hI hrun hd hx hT hdrop
    obtain ⟨huI, hua, hum⟩ := State.runsWithoutStore_keeps (hI.cpuReset hI.storeRange) hT hrun
    obtain ⟨v, hv, hread⟩ := exec_lw_cell huI hua hd hx hT hdrop
    exact ⟨v, hv, hread.trans hum⟩

/-! ### Comparison, branches and jumps -/

/-- Settles O40: the relation, as `C` reads it back. -/
theorem cmpResult : Obligations.CmpResult := by
  unfold Obligations.CmpResult
  intro s ra rb rel hI ha hrel
  refine ⟨_, exec_cmp ha hrel, fun j => ?_, rfl, fun a => rfl, fun row col => rfl, ⟨rfl, rfl, rfl, rfl⟩, rfl⟩
  rw [State.readReg_advance, State.readReg_writeC hI.archWf hI.regCount, trunc_b2i (wf_one_le_W hI.archWf)]
  cases rel <;> simp only [State.compare_eq, State.compare_ne, State.compare_gt]

theorem branch_answers {s : State} {ra : Nat} (ha : ra < s.arch.R) (rel : CmpRel) (imm : Int) :
    checkReg s .ra ra (s.branch rel ra imm) =
      .next { s with pc := s.pc + 1 + if s.compare rel ra then imm else 0 } := by
  rw [checkReg_ok ha, State.branch]
  split
  · rfl
  · rw [Int.add_zero]; rfl

/-- Settles O41: a branch jumps, by its relation, to `p + 1 + imm` or `p + 1`. -/
theorem branchResult : Obligations.BranchResult := by
  unfold Obligations.BranchResult
  intro s ra imm ha
  refine ⟨(branch_answers ha .eq imm).trans ?_, (branch_answers ha .ne imm).trans ?_,
    (branch_answers ha .gt imm).trans ?_⟩
  · simp only [State.compare_eq]
  · simp only [State.compare_ne]
  · simp only [State.compare_gt]

/-- Settles O43: j and jr are jumps. -/
theorem jumpResult : Obligations.JumpResult := by
  unfold Obligations.JumpResult
  exact fun s ra rb tgt => ⟨rfl, exec_jr⟩

/-- The link register takes the write of jal where `LINK` is not `C`, or `C` is written as any other (R33). -/
theorem dropsWrite_link {D : Descriptor} (h : D.wf = true) {l : Nat} (hl : D.link = some l)
    (hw : l ≠ D.C ∨ D.cExplicitWrite = .write) : dropsWrite D l = false := by
  obtain ⟨-, hres⟩ := wf_link h hl
  rcases hw with hne | hw
  · simp [dropsWrite, hres, hne]
  · simp [dropsWrite, hres, hw]

/-- Settles O44: jal is a register write and a jump. -/
theorem jalResult : Obligations.JalResult := by
  unfold Obligations.JalResult
  intro s tgt l hI hl
  obtain ⟨hlR, -⟩ := wf_link hI.archWf hl
  obtain ⟨hmem, hdisp, hhost⟩ := s.writeReg_frame l (s.pc + 1)
  have hreg : RegWritten s (s.writeReg l (s.pc + 1)) l (s.pc + 1) := State.writeReg_regWritten (hI.regCount ▸ hlR) _
  refine ⟨_, exec_jal hl tgt, hreg, fun hw => ?_, rfl, hmem, hdisp, hhost, by simp⟩
  rw [State.readReg_jumpTo, hreg l, if_pos ⟨rfl, dropsWrite_link hI.archWf hl hw⟩]

/-- Settles O45: the link register holds `p + 1`, which fits, and jr jumps there. -/
theorem callThenReturn : Obligations.CallThenReturn := by
  unfold Obligations.CallThenReturn
  intro s tgt l rb hI hl hw hpc hfit
  obtain ⟨t, ht, -, hlink, -, -, -, ⟨harch, -⟩, -⟩ := jalResult s tgt l hI hl
  obtain ⟨hlR, -⟩ := wf_link hI.archWf hl
  refine ⟨t, _, ht, exec_jr (by rwa [harch]), ?_⟩
  have hnat : ((s.pc + 1).toNat : Int) = s.pc + 1 := Int.toNat_of_nonneg (by omega)
  rw [State.jumpTo_pc, hlink hw, ← hnat, trunc_of_lt (by zify; rwa [hnat])]

/-- Writing a register's own value changes nothing. -/
theorem State.writeReg_self {s : State} (hI : s.Inv) {i : Nat} (hi : i < s.arch.R) :
    s.writeReg i (s.readReg i) = s := by
  rw [State.writeReg]
  split
  · rfl
  · next hd =>
    simp only [dropsWrite, Bool.or_eq_true, not_or, Option.isSome_iff_ne_none, ne_eq, not_not] at hd
    have hlen : i < s.x.length := hI.regCount.symm ▸ hi
    have hread : s.readReg i = s.x[i] := by simp [State.readReg, hd.1, List.getD, hlen]
    have hx : s.x.set i (trunc s.arch.W (s.readReg i)) = s.x := by
      rw [trunc_of_lt (State.readReg_lt hI i), hread, List.set_getElem_self]
    rw [State.setReg, hx]

/-- Settles O46: a taken branch by −1, a jump to `p`, and a register written with its own value. -/
theorem idiomsChangeNothing : Obligations.IdiomsChangeNothing := by
  unfold Obligations.IdiomsChangeNothing
  intro s hI
  have hC : s.arch.C < s.arch.R := by have := (wf_C hI.archWf).1; omega
  refine ⟨?_, fun tgt hpc => ?_, fun ra ha => ?_⟩
  · rw [(branchResult s s.arch.C (-1) hC).1]
    simp
  · rw [(jumpResult s 0 0 tgt).1, ← hpc]
  · rw [exec_mov ha ha, State.writeBack, State.writeReg_self hI ha]
    rfl

/-! ### Signed and unsigned readings -/

/-- Settles O42: the signed reading lowers a pattern with the top bit by `2^W`, below every pattern without it. -/
theorem signedReadingDiffersOnTopBits : Obligations.SignedReadingDiffersOnTopBits := by
  unfold Obligations.SignedReadingDiffersOnTopBits
  intro W a b hW ha hb
  have ha' : (a : Int) < 2 ^ W := by exact_mod_cast ha
  have hb' : (b : Int) < 2 ^ W := by exact_mod_cast hb
  rw [relHolds, decide_eq_decide]
  rcases Nat.lt_or_ge a (2 ^ (W - 1)) with hta | hta <;> rcases Nat.lt_or_ge b (2 ^ (W - 1)) with htb | htb
  · rw [sext_of_lt hta, sext_of_lt htb]; omega
  · rw [sext_of_lt hta, sext_of_le htb]; omega
  · rw [sext_of_le hta, sext_of_lt htb]; omega
  · rw [sext_of_le hta, sext_of_le htb]; omega

theorem trunc_congr {W : Nat} {u v : Int} (h : u ≡ v [ZMOD 2 ^ W]) : trunc W u = trunc W v := congrArg Int.toNat h

theorem trunc_natCast (W n : Nat) : trunc W (n : Int) = n % 2 ^ W := by
  rw [trunc, ← Int.toNat_natCast (n % 2 ^ W)]
  push_cast
  rfl

theorem sext_modEq (W v : Nat) : sext W v ≡ v [ZMOD 2 ^ W] := by
  unfold sext
  split
  · exact Int.ModEq.refl _
  · exact Int.sub_modulus_modEq_iff.2 (Int.ModEq.refl _)

/-- Settles O30: the two readings of an operand are congruent modulo `2^W`, and so are their sums and differences. -/
theorem arithmeticNeedsNoSignedness : Obligations.ArithmeticNeedsNoSignedness := by
  unfold Obligations.ArithmeticNeedsNoSignedness
  intro W a b hW ha hb
  have hA := BitVec.toNat_ofNat a W ▸ Nat.mod_eq_of_lt ha
  have hB := BitVec.toNat_ofNat b W ▸ Nat.mod_eq_of_lt hb
  refine ⟨trunc_congr ((sext_modEq W a).add (sext_modEq W b)),
    trunc_congr ((sext_modEq W a).sub (sext_modEq W b)), ?_, ?_⟩
  · rw [BitVec.toNat_add, hA, hB, ← trunc_natCast]
    norm_cast
  · rw [BitVec.toNat_sub, hA, hB, ← trunc_natCast]
    refine trunc_congr ?_
    rw [Nat.cast_add, Nat.cast_sub hb.le, Nat.cast_pow, sub_add_eq_add_sub, add_sub_assoc]
    exact Int.modEq_modulus_add_iff.2 (Int.ModEq.refl _)

end Sys2Proof.Machine
end
